-- ==== Sys2Proof/Word.lean ====
section
/-! DEFINITION. The machine's words: the bit-vector widths the spec gives (00_scope.md R8, R10). -/

namespace Sys2Proof

/-- One byte on the bus (R11). -/
abbrev Byte := BitVec 8

/-- A 16-bit opcode word (R54) or the 16-bit status register (R19). -/
abbrev Half := BitVec 16

/-- A 32-bit register value or CPU address: the `u32` of R10, whose `+` is modulo 2^32. -/
abbrev Word := BitVec 32

/-- A register number 0..7 of either register file (R16, R17). -/
abbrev Reg := Fin 8

end Sys2Proof
end

