-- ==== Sys2Proof/Config.lean ====
section
/-! DEFINITION. What is fixed for one machine and what the spec leaves open (00_scope.md R8): the free values
`P_INIT` and `P_WARM`, which have no body, and the memory map that `State.reset` shows.

The descriptor table `P_TABLE` (R25, R62) is the argument `t` of every table-driven operation
(`Machine/Engine.lean`, `Machine/Transactions.lean`); its default `T0` is `defaultTable` of `Decode.lean`. -/

namespace Sys2Proof.Config

/-- P_INIT for the data registers (R115): what `D[r]` holds after the `CpuReset` that takes draw number `draw`.
A free value: nothing constrains it (log entry 1). -/
opaque initData : (draw : Nat) → (r : Reg) → Word

/-- P_INIT for the address registers (R115): what `A[r]` holds after the `CpuReset` that takes draw number
`draw`, for `r` other than 7. A free value (log entry 1). -/
opaque initAddress : (draw : Nat) → (r : Reg) → Word

/-- P_INIT for all 16 bits of the status register (R115, R119). A free value (log entry 1). -/
opaque initStatus : (draw : Nat) → Half

/-- P_WARM (R31, R120): what the byte at offset `offset` of region `id` holds after the warm reset that takes
draw number `draw`, where it held `old` before. A free value (log entry 2); taking `old` as an argument lets a
platform whose regions keep their contents be one instance of it. -/
opaque warmByte : (draw id offset : Nat) → (old : Byte) → Byte

/-- P_REGIONS as `State.reset` has it: the base and the length of each attached region, in attachment order.
The spec leaves the platform's memory map open (R8, R48). DESIGN CHOICE, unsafe (log entry 3): one region that
covers the 32-bit address space. -/
def resetRegions : List (Nat × Nat) := [(0, 4294967296)]

end Sys2Proof.Config
end

