-- ==== Sys2Proof/Syntax.lean ====
section
/-! DEFINITION. The instructions of the default table, the addressing-mode categories and the descriptor table
as data (30_encoding.md R55 to R62, R67). -/

namespace Sys2Proof

/-- The instructions of the default table `T0` (R67), one constructor a row, operands in the order of the
assembler text (R72): the source, then the destination data register `x`. A register number is a `Reg`, so every
value of this type is a well-formed instruction. -/
inductive Instr where
  /-- `MOVE.L Dy,Dx` (R90). -/
  | moveDyDx (y x : Reg)
  /-- `MOVE.L Ay,Dx` (R91). -/
  | moveAyDx (y x : Reg)
  /-- `MOVE.L #imm,Dx` (R92). -/
  | moveImmDx (imm : Word) (x : Reg)
  /-- `ADD.L Dy,Dx` (R94). -/
  | addDyDx (y x : Reg)
  /-- `ADD.L Ay,Dx` (R95). -/
  | addAyDx (y x : Reg)
  /-- `ADD.L #imm,Dx` (R96). -/
  | addImmDx (imm : Word) (x : Reg)
deriving DecidableEq, Repr

/-- An operand's location category: the eight modes of R58, with the mode-7 group split by its register
sub-field (R59). -/
inductive Ea where
  /-- Mode 0, data register direct. -/
  | dataReg (r : Reg)
  /-- Mode 1, address register direct. -/
  | addrReg (r : Reg)
  /-- Mode 2, address-register indirect. -/
  | indirect (r : Reg)
  /-- Mode 3, indirect with postincrement. -/
  | postIncrement (r : Reg)
  /-- Mode 4, indirect with predecrement. -/
  | preDecrement (r : Reg)
  /-- Mode 5, indirect with 16-bit displacement. -/
  | displacement (r : Reg)
  /-- Mode 6, indirect indexed. -/
  | indexed (r : Reg)
  /-- Mode 7, sub-register 0: absolute short. -/
  | absoluteShort
  /-- Mode 7, sub-register 1: absolute long. -/
  | absoluteLong
  /-- Mode 7, sub-register 2: PC-relative with displacement. -/
  | pcDisplacement
  /-- Mode 7, sub-register 3: PC-relative indexed. -/
  | pcIndexed
  /-- Mode 7, sub-register 4: immediate. -/
  | immediate
  /-- Mode 7, sub-registers 5 to 7, which name no operand. -/
  | unassigned (r : Reg)
deriving DecidableEq, Repr

/-- Which sub-field of a 6-bit window is the mode (R55, R56). -/
inductive EaLayout where
  /-- Register-Mode: the register is the high sub-field (R55). -/
  | registerMode
  /-- Mode-Register: the mode is the high sub-field (R56). -/
  | modeRegister
deriving DecidableEq, Repr

/-- Where a descriptor finds its source operand (R61). -/
inductive SrcKind where
  /-- The `(mode, register)` pair in the window whose top bit is `top`. -/
  | ea (layout : EaLayout) (top : Nat)
deriving DecidableEq, Repr

/-- Where a descriptor finds its destination operand (R61). -/
inductive DstKind where
  /-- The data register whose number is the three opcode bits `hi` down to `hi - 2`. -/
  | dataReg (hi : Nat)
deriving DecidableEq, Repr

/-- A descriptor's execute stage (R61, R79). -/
inductive OpKind where
  /-- The move class (R89). -/
  | move
  /-- The add class (R93). -/
  | add
deriving DecidableEq, Repr

/-- How a descriptor's text shows its source operand (R87). -/
inductive SrcText where
  /-- By the decoder's operand renderer (R88). -/
  | operand
  /-- By the descriptor itself, as `#$` and eight hexadecimal digits of the operand bytes. -/
  | immediate
deriving DecidableEq, Repr

/-- A descriptor's text template (R61, R87): the lower-case mnemonic, and how the source is shown. -/
structure TextTemplate where
  mnemonic : String
  source   : SrcText
deriving DecidableEq, Repr

/-- A descriptor (R61). `operandBytes` is the spec's `L`. -/
structure Descriptor where
  operandBytes : Nat
  src          : SrcKind
  dst          : DstKind
  kind         : OpKind
  render       : TextTemplate
deriving DecidableEq, Repr

/-- One row of a descriptor table (R62). `pattern` is the spec's `match`. -/
structure Row where
  pattern : Half
  mask    : Half
  desc    : Descriptor
deriving DecidableEq, Repr

/-- A descriptor table, the spec's `P_TABLE` (R62). -/
abbrev Table := List Row

end Sys2Proof
end

