-- ==== Sys2Proof/WellFormed.lean ====
section
/-! DEFINITION. Which descriptor tables are well formed (30_encoding.md R57, R61, R62). The register numbers and
the immediate of an `Instr` carry their bounds in their types, so `Instr` needs no check; what can be ill formed
on this hardware is a descriptor table, and a machine refuses such a table (93_implementation_defined.md I10). -/

namespace Sys2Proof

/-- The window's six bits lie in the opcode word (R57). -/
def SrcKind.wf : SrcKind → Bool
  | .ea _ top => decide (5 ≤ top ∧ top ≤ 15)

/-- The three bits `hi` down to `hi - 2` lie in the opcode word. R61 bounds `hi` by 15; that it is at least 2 is
DEDUCED (log entry 4). -/
def DstKind.wf : DstKind → Bool
  | .dataReg hi => decide (2 ≤ hi ∧ hi ≤ 15)

/-- Clause (1) of R62: the pattern has no bit outside the mask. -/
def Row.patternInMask (r : Row) : Bool := r.pattern &&& ~~~r.mask == 0

/-- One row is well formed: clause (1) of R62, and its field positions lie in the opcode word (R57). -/
def Row.wf (r : Row) : Bool := r.patternInMask && r.desc.src.wf && r.desc.dst.wf

/-- An opcode value matches a row (R62). -/
def Row.accepts (r : Row) (op : Half) : Bool := op &&& r.mask == r.pattern

/-- Two rows differ in a bit that both of them fix. For rows that meet clause (1) of R62 this says that no
opcode value matches both. -/
def Row.disjoint (r r' : Row) : Bool := (r.pattern ^^^ r'.pattern) &&& r.mask &&& r'.mask != 0

/-- Clause (2) of R62: no two rows of the table match one opcode value. -/
def Table.disjoint : Table → Bool
  | []      => true
  | r :: rs => rs.all (fun r' => r.disjoint r') && Table.disjoint rs

/-- A well-formed descriptor table (R57, R62). -/
def Table.wf (t : Table) : Bool := t.all Row.wf && Table.disjoint t

end Sys2Proof
end

