-- ==== Sys2Proof/Decode.lean ====
section
/-! DEFINITION. Byte order, the two field-window decoders, the addressing-mode categories, the default
descriptor table `T0` with its lookup, the decoder from bytes to an instruction, and the encoder
(20_memory.md R44; 30_encoding.md R53 to R71). -/

namespace Sys2Proof

/-! Byte order. -/

/-- `BE16` of a two-byte sequence: the first byte is the most significant (R11, R44). -/
def be16 (bs : List Byte) : Half := bs.getD 0 0 ++ bs.getD 1 0

/-- `BE32` of a four-byte sequence (R11, R44). -/
def be32 (bs : List Byte) : Word := bs.getD 0 0 ++ bs.getD 1 0 ++ bs.getD 2 0 ++ bs.getD 3 0

/-- The two bytes of a 16-bit value, big-endian (R44). -/
def bytesBE16 (v : Half) : List Byte := [v.extractLsb' 8 8, v.extractLsb' 0 8]

/-- `bytesBE32` of R11. -/
def bytesBE32 (v : Word) : List Byte :=
  [v.extractLsb' 24 8, v.extractLsb' 16 8, v.extractLsb' 8 8, v.extractLsb' 0 8]

/-! Field windows and addressing modes. -/

/-- The three opcode bits `hi` down to `hi - 2`. -/
def field3 (op : Half) (hi : Nat) : BitVec 3 := op.extractLsb' (hi - 2) 3

/-- A three-bit register sub-field as a register number. -/
def regOf (f : BitVec 3) : Reg := f.toFin

/-- `decodeRM`: the register is the high sub-field of the window and the mode the low one (R55).
The answer is `(mode, register)`. -/
def decodeRM (op : Half) (top : Nat) : BitVec 3 × BitVec 3 := (field3 op (top - 3), field3 op top)

/-- `decodeMR`: the mode is the high sub-field of the window and the register the low one (R56). -/
def decodeMR (op : Half) (top : Nat) : BitVec 3 × BitVec 3 := (field3 op top, field3 op (top - 3))

/-- The `(mode, register)` pair of a window in either layout (R55, R56). -/
def decodeWindow : EaLayout → Half → Nat → BitVec 3 × BitVec 3
  | .registerMode => decodeRM
  | .modeRegister => decodeMR

/-- The operand a mode-7 register sub-field names (R59). -/
def classifyMode7 (reg : BitVec 3) : Ea :=
  match reg.toNat with
  | 0 => .absoluteShort
  | 1 => .absoluteLong
  | 2 => .pcDisplacement
  | 3 => .pcIndexed
  | 4 => .immediate
  | _ => .unassigned (regOf reg)

/-- The category a `(mode, register)` pair selects (R58, R59). -/
def classify (mode reg : BitVec 3) : Ea :=
  match mode.toNat with
  | 0 => .dataReg (regOf reg)
  | 1 => .addrReg (regOf reg)
  | 2 => .indirect (regOf reg)
  | 3 => .postIncrement (regOf reg)
  | 4 => .preDecrement (regOf reg)
  | 5 => .displacement (regOf reg)
  | 6 => .indexed (regOf reg)
  | _ => classifyMode7 reg

/-- The extension bytes R59 lists for the mode-7 operands; `none` for what its table gives no number. -/
def Ea.mode7ExtensionBytes : Ea → Option Nat
  | .absoluteShort   => some 2
  | .absoluteLong    => some 4
  | .pcDisplacement  => some 2
  | .pcIndexed       => some 2
  | .immediate       => some 4
  | .unassigned _    => none
  | .dataReg _       => none
  | .addrReg _       => none
  | .indirect _      => none
  | .postIncrement _ => none
  | .preDecrement _  => none
  | .displacement _  => none
  | .indexed _       => none

/-- The `(mode, register)` pair a descriptor's source window holds in a live opcode (R65, R78). -/
def SrcKind.window : SrcKind → Half → BitVec 3 × BitVec 3
  | .ea layout top, op => decodeWindow layout op top

/-- The destination register a descriptor selects from a live opcode (R65, R80). -/
def DstKind.reg : DstKind → Half → Reg
  | .dataReg hi, op => regOf (field3 op hi)

/-! The default table. -/

/-- A descriptor of `T0`: every source is `EA(MR, 5)` and every destination `DReg(11)` (R61). -/
def defaultDescriptor (operandBytes : Nat) (kind : OpKind) (mnemonic : String) (source : SrcText) :
    Descriptor :=
  { operandBytes := operandBytes
    src := .ea .modeRegister 5
    dst := .dataReg 11
    kind := kind
    render := { mnemonic := mnemonic, source := source } }

/-- The default table `T0` (R67), its rows in the order of that rule. -/
def defaultTable : Table :=
  [ { pattern := 0x2000, mask := 0xF1F8, desc := defaultDescriptor 0 .move "move.l" .operand }
  , { pattern := 0x2008, mask := 0xF1F8, desc := defaultDescriptor 0 .move "move.l" .operand }
  , { pattern := 0x203C, mask := 0xF1FF, desc := defaultDescriptor 4 .move "move.l" .immediate }
  , { pattern := 0xD080, mask := 0xF1F8, desc := defaultDescriptor 0 .add "add.l" .operand }
  , { pattern := 0xD088, mask := 0xF1F8, desc := defaultDescriptor 0 .add "add.l" .operand }
  , { pattern := 0xD0BC, mask := 0xF1FF, desc := defaultDescriptor 4 .add "add.l" .immediate } ]

/-- `lookupDesc` (R63): the descriptor of the row that matches; `none` where the opcode is invalid (R70). In a
well-formed table at most one row matches, so the order of the search shows nothing. -/
def lookupDesc (t : Table) (op : Half) : Option Descriptor :=
  (t.find? (fun r => r.accepts op)).map Row.desc

/-! The decoder. -/

/-- Why bytes do not decode to an instruction. -/
inductive DecodeError where
  /-- The opcode word matches no row (R63, R70). Raised by `decode`. Safe: the spec's own `InvalidOpcode`. -/
  | invalidOpcode (op : Half)
  /-- Fewer bytes than the instruction's length `2 + L` (R53). Raised by `decode` on a short byte list, never
  by a fetch. Safe. -/
  | truncated
  /-- The row's source operand has no meaning (R60). Raised by `decode`; no opcode of the default table
  reaches it. Safe. -/
  | unresolvedOperand (op : Half)
deriving DecidableEq, Repr

/-- The instruction of class `kind` from the source `ea` to data register `x`, where the spec gives one: the
sources of R60. -/
def Instr.ofOperands (kind : OpKind) (ea : Ea) (opnd : List Byte) (x : Reg) : Option Instr :=
  match kind, ea with
  | .move, .dataReg y => some (.moveDyDx y x)
  | .move, .addrReg y => some (.moveAyDx y x)
  | .move, .immediate => some (.moveImmDx (be32 opnd) x)
  | .add, .dataReg y  => some (.addDyDx y x)
  | .add, .addrReg y  => some (.addAyDx y x)
  | .add, .immediate  => some (.addImmDx (be32 opnd) x)
  | _, _              => none

/-- The instruction a descriptor of the default table stands for at a live opcode with its operand bytes
(R60, R65, R66). -/
def Instr.ofDescriptor (d : Descriptor) (op : Half) (opnd : List Byte) : Option Instr :=
  Instr.ofOperands d.kind (classify (d.src.window op).1 (d.src.window op).2) opnd (d.dst.reg op)

/-- The decoder: the instruction at the front of a byte sequence, and the bytes after it (R53, R54, R63, R71). -/
def decode : List Byte → Except DecodeError (Instr × List Byte)
  | b0 :: b1 :: rest =>
    match lookupDesc defaultTable (be16 [b0, b1]) with
    | none => .error (.invalidOpcode (be16 [b0, b1]))
    | some d =>
      if rest.length < d.operandBytes then .error .truncated
      else match Instr.ofDescriptor d (be16 [b0, b1]) (rest.take d.operandBytes) with
        | none => .error (.unresolvedOperand (be16 [b0, b1]))
        | some i => .ok (i, rest.drop d.operandBytes)
  | _ => .error .truncated

/-! The encoder. -/

/-- A register number as a three-bit field. -/
def regField (r : Reg) : BitVec 3 := BitVec.ofFin r

/-- The MOVE format (R68): `0010`, the destination register, mode `000`, then the source window. -/
def moveOpcode (x : Reg) (mode reg : BitVec 3) : Half := 0b0010#4 ++ regField x ++ 0b000#3 ++ mode ++ reg

/-- The ADD format (R69): `1101`, the destination register, operation mode `010`, then the source window. -/
def addOpcode (x : Reg) (mode reg : BitVec 3) : Half := 0b1101#4 ++ regField x ++ 0b010#3 ++ mode ++ reg

/-- The opcode word of an instruction (R67). -/
def Instr.opcode : Instr → Half
  | .moveDyDx y x  => moveOpcode x 0b000 (regField y)
  | .moveAyDx y x  => moveOpcode x 0b001 (regField y)
  | .moveImmDx _ x => moveOpcode x 0b111 0b100
  | .addDyDx y x   => addOpcode x 0b000 (regField y)
  | .addAyDx y x   => addOpcode x 0b001 (regField y)
  | .addImmDx _ x  => addOpcode x 0b111 0b100

/-- The operand bytes of an instruction (R66). -/
def Instr.operand : Instr → List Byte
  | .moveDyDx _ _    => []
  | .moveAyDx _ _    => []
  | .moveImmDx imm _ => bytesBE32 imm
  | .addDyDx _ _     => []
  | .addAyDx _ _     => []
  | .addImmDx imm _  => bytesBE32 imm

/-- The encoder: the opcode word big-endian, then the operand bytes (R53, R54). -/
def encode (i : Instr) : List Byte := bytesBE16 i.opcode ++ i.operand

/-! The host's numbering of an instruction's bits. -/

/-- The bytes of an instruction whose bits are `w`, numbered from the least significant bit of the FIRST 16-bit
word on, laid out as the bus stores them: three 16-bit words, each big-endian, the first at the lowest address.
Every bit from `nbits` up is 0. -/
def tableWordBytes (nbits w : Nat) : List Byte :=
  let v := w % 2 ^ nbits
  bytesBE16 (BitVec.ofNat 16 v) ++ bytesBE16 (BitVec.ofNat 16 (v / 2 ^ 16))
    ++ bytesBE16 (BitVec.ofNat 16 (v / 2 ^ 32))

/-- The instruction the decoder reads from a word numbered as spec/opcode_table.json numbers it. -/
def decodeTableWord (nbits w : Nat) : Option Instr :=
  match decode (tableWordBytes nbits w) with
  | .ok (i, _) => some i
  | .error _   => none

end Sys2Proof
end

