-- ==== Sys2Proof/Machine/State.lean ====
section
/-! DEFINITION. The state of the block as plain data, the reasons a step can stop, and the state after reset
(10_state.md R15 to R27; 60_exceptions.md R97). -/

namespace Sys2Proof.Machine

/-- The contents of one region: a list of (offset, byte) cells, offsets strictly rising, no cell holding the
value an unlisted offset reads as. -/
abbrev Memory := List Host.Cell

/-- What an unlisted offset of a region reads as: 0, a region's contents after a power-on reset (R31). DESIGN CHOICE
for a region not yet reset (log entry 10). -/
def Memory.unlisted : Byte := 0

/-- The canonical form: offsets strictly rising, and no cell equal to what an unlisted offset reads as. -/
abbrev Memory.wf (m : Memory) : Prop :=
  (m.map Prod.fst).Pairwise (· < ·) ∧ ∀ c ∈ m, c.2 ≠ Memory.unlisted

/-- An attached region (R15, R29): `len` bytes, whose contents are `mem`. -/
structure Region where
  len : Nat
  mem : Memory
deriving DecidableEq, Repr

/-- One mapping of the bus (R15, R23). Its identifier is its position in the list of mappings and its end is
`base + len`, so neither is stored. -/
structure Mapping where
  base   : Nat
  region : Region
deriving DecidableEq, Repr

/-- The block's state (R15), with the two admission conditions of R74 and R117 and the count of draws. -/
structure State where
  /-- The data registers D0 to D7 (R16). -/
  d : Vector Word 8
  /-- The address registers A0 to A7; A7 is the stack pointer (R17). -/
  a : Vector Word 8
  /-- The program counter (R18). -/
  pc : Word
  /-- The status register; its low five bits are X N Z V C (R19, R20). -/
  sr : Half
  /-- The bus's mappings, in attachment order (R23). -/
  maps : List Mapping
  /-- The CPU admits a `Step` (R74, R101). DEDUCED that it is state (log entry 7). -/
  ready : Bool
  /-- A `BusReset` has come since the last attachment (R117). DEDUCED that it is state (log entry 8). -/
  busReset : Bool
  /-- The model's own field, not the spec's: how many draws the free values of `Config` have given. -/
  draws : Nat
deriving DecidableEq, Repr

/-- Why a transaction raises (R97). The first three are the bus faults. -/
inductive Fault where
  /-- An access's start address lies in no mapping's `[base, end]` (R35, R99). Raised by routed accesses: the
  opcode and operand fetches, the reset-vector reads, the disassembler, host reads and writes. Safe: the spec's
  own fault. -/
  | regionNotFound (addr : Word)
  /-- The selected region ends before the access does, or a by-identifier address is below the base (R30, R39).
  Raised by the same accesses and by the by-identifier ones. Safe. -/
  | regionOutOfRange (addr : Word) (n : Nat)
  /-- A by-identifier access names an identifier not yet attached (R39). Raised by `BusReadId` and
  `BusWriteId`. Safe. -/
  | badRegionId (id : Nat)
  /-- The opcode word `op` at `addr` matches no row of the table (R98). Raised by `Step` and `Disassemble`.
  Safe: the spec's own fault. -/
  | invalidOpcode (addr : Word) (op : Half)
deriving DecidableEq, Repr

/-- Why a transaction is refused. -/
inductive Refusal where
  /-- The instruction has no meaning yet. Raised by no arm of this model. Safe. -/
  | notModelled (mnemonic : String)
  /-- A `Step` while the CPU is not ready (R74, R101). Raised by `step`. Safe: the spec says to refuse. -/
  | cpuNotReady
  /-- A `CpuReset` with no `BusReset` since the last attachment (R117). Raised by `CpuReset`. Safe: the spec
  says to refuse. -/
  | busNotReset
  /-- The descriptor table is ill formed (R57, R62). Raised by the table-driven transactions; never by the
  default table. Safe: the spec says to refuse. -/
  | illFormedTable
  /-- A row of a parameter table asks for a source operand that the spec gives no value (R60; 91_not_in_source
  N6; DEDUCED, log entry 14). Raised by the table-driven step; never by the default table. Safe. -/
  | unresolvedOperand (addr : Word) (op : Half)
deriving DecidableEq, Repr

/-- Before anything has been done to the block: no region attached, the CPU not ready (R27, R74). Every register
is unspecified there; that they hold 0 is a DESIGN CHOICE (log entry 5). -/
def State.powerOn : State :=
  { d := Vector.replicate 8 0, a := Vector.replicate 8 0, pc := 0, sr := 0
    maps := [], ready := false, busReset := false, draws := 0 }

/-- The machine right after reset: the regions of `Config.resetRegions` attached, a power-on `BusReset`, then a
`CpuReset` (R118), so the regions hold zeros, `A7` and `pc` hold what the reset vector reads there (0), and the
CPU is ready. The spec gives no value for `D0`-`D7`, `A0`-`A6` and `sr`; that they hold 0 here is a DESIGN CHOICE,
unsafe (log entry 5). The transaction `CpuReset` itself leaves free values in them. -/
def State.reset : State :=
  { d := Vector.replicate 8 0, a := Vector.replicate 8 0, pc := 0, sr := 0
    maps := Config.resetRegions.map (fun r => { base := r.1, region := { len := r.2, mem := [] } })
    ready := true, busReset := true, draws := 0 }

end Sys2Proof.Machine
end

