-- ==== Sys2Proof/Machine/Bus.lean ====
section
/-! DEFINITION. Region contents, the address lookup, and the routed and by-identifier accesses of the bus
(20_memory.md R29 to R41). -/

namespace Sys2Proof.Machine

/-! The contents of a region. -/

/-- The byte at an offset. -/
def Memory.read : Memory → Nat → Byte
  | [], _ => Memory.unlisted
  | (k, v) :: m, off => if k = off then v else Memory.read m off

/-- Sets one byte and keeps the canonical form: writing the value an unlisted offset reads as removes the cell. -/
def Memory.write : Memory → Nat → Byte → Memory
  | [], off, b => if b = Memory.unlisted then [] else [(off, b)]
  | (k, v) :: m, off, b =>
    if off < k then (if b = Memory.unlisted then (k, v) :: m else (off, b) :: (k, v) :: m)
    else if off = k then (if b = Memory.unlisted then m else (off, b) :: m)
    else (k, v) :: Memory.write m off b

/-- The `n` bytes from an offset on, the lowest offset first. -/
def Memory.readBytes (m : Memory) : Nat → Nat → List Byte
  | _, 0 => []
  | off, n + 1 => m.read off :: Memory.readBytes m (off + 1) n

/-- Sets the bytes from an offset on. -/
def Memory.writeBytes : Memory → Nat → List Byte → Memory
  | m, _, [] => m
  | m, off, b :: bs => Memory.writeBytes (m.write off b) (off + 1) bs

/-- The contents of offsets `0` to `len - 1` in canonical form: the same bytes, for a list of cells in any form. -/
def Memory.canonical (len : Nat) : Memory → Memory
  | [] => []
  | (k, v) :: m => if k < len then (Memory.canonical len m).write k v else Memory.canonical len m

/-- A region's contents are canonical and lie within its length. -/
abbrev Region.wf (g : Region) : Prop := g.mem.wf ∧ ∀ c ∈ g.mem, c.1 < g.len

/-- A region as the bus holds it. -/
def Region.canonical (g : Region) : Region := { g with mem := Memory.canonical g.len g.mem }

/-- `read(offset, n)` of R29, or the out-of-range fault of R30 at the address `addr` of the access. -/
def Region.read (g : Region) (addr : Word) (off n : Nat) : Except Fault (List Byte) :=
  if off + n ≤ g.len then .ok (g.mem.readBytes off n) else .error (.regionOutOfRange addr n)

/-- `write(offset, b)` of R29, or the out-of-range fault of R30, with no byte written. -/
def Region.write (g : Region) (addr : Word) (off : Nat) (bs : List Byte) : Except Fault Region :=
  if off + bs.length ≤ g.len then .ok { g with mem := g.mem.writeBytes off bs }
  else .error (.regionOutOfRange addr bs.length)

/-- The contents after a warm reset (R31, P_WARM): every byte below `n` the draw of `Config.warmByte`. -/
def Memory.warm (draw id : Nat) (old : Memory) : Nat → Memory
  | 0 => []
  | n + 1 => (Memory.warm draw id old n).write n (Config.warmByte draw id n (old.read n))

/-- `reset(power_on)` of R31: zero every byte on a power-on reset; draw every byte on a warm one. -/
def Region.reset (powerOn : Bool) (draw id : Nat) (g : Region) : Region :=
  { g with mem := if powerOn then [] else Memory.warm draw id g.mem g.len }

/-! The mappings. -/

/-- The spec's `end`: one past the last byte of the region, in unbounded naturals (R33). -/
def Mapping.limit (m : Mapping) : Nat := m.base + m.region.len

/-- The mapping claims an address: both bounds are inclusive (R35; 90_conflicts.md C1). -/
def Mapping.claims (m : Mapping) (addr : Nat) : Bool := decide (m.base ≤ addr ∧ addr ≤ m.limit)

/-- `lookup` (R35): the identifier and the mapping of the first one that claims an address, in attachment order;
`none` is `RegionNotFound`. `first` is the identifier of the list's head. -/
def lookupFrom (first : Nat) : List Mapping → Nat → Option (Nat × Mapping)
  | [], _ => none
  | m :: ms, addr => if m.claims addr then some (first, m) else lookupFrom (first + 1) ms addr

/-- `lookup` over all mappings (R35). -/
def lookup (maps : List Mapping) (addr : Nat) : Option (Nat × Mapping) := lookupFrom 0 maps addr

/-- Puts a region in the place of the one with an identifier. -/
def setRegion (maps : List Mapping) (id : Nat) (m : Mapping) (g : Region) : List Mapping :=
  maps.set id { m with region := g }

/-- `MemRead` (R36): only the start address is routed (R38). -/
def memRead (maps : List Mapping) (addr : Word) (n : Nat) : Except Fault (List Byte) :=
  match lookup maps addr.toNat with
  | none => .error (.regionNotFound addr)
  | some (_, m) => m.region.read addr (addr.toNat - m.base) n

/-- `MemWrite` (R37). -/
def memWrite (maps : List Mapping) (addr : Word) (bs : List Byte) : Except Fault (List Mapping) :=
  match lookup maps addr.toNat with
  | none => .error (.regionNotFound addr)
  | some (id, m) =>
    match m.region.write addr (addr.toNat - m.base) bs with
    | .error f => .error f
    | .ok g => .ok (setRegion maps id m g)

/-- `BusReadId` (R39). -/
def readId (maps : List Mapping) (id : Nat) (addr : Word) (n : Nat) : Except Fault (List Byte) :=
  match maps[id]? with
  | none => .error (.badRegionId id)
  | some m =>
    if addr.toNat < m.base then .error (.regionOutOfRange addr n)
    else m.region.read addr (addr.toNat - m.base) n

/-- `BusWriteId` (R40). -/
def writeId (maps : List Mapping) (id : Nat) (addr : Word) (bs : List Byte) :
    Except Fault (List Mapping) :=
  match maps[id]? with
  | none => .error (.badRegionId id)
  | some m =>
    if addr.toNat < m.base then .error (.regionOutOfRange addr bs.length)
    else match m.region.write addr (addr.toNat - m.base) bs with
      | .error f => .error f
      | .ok g => .ok (setRegion maps id m g)

/-- `BusAttach` (R33): appends the mapping; the identifier is the number of mappings before it. Every
attachment owns its bytes (DESIGN CHOICE, log entry 11). -/
def attach (maps : List Mapping) (addr : Word) (g : Region) : List Mapping :=
  maps ++ [{ base := addr.toNat, region := g.canonical }]

/-- `BusReset` over the mappings from identifier `first` on, in attachment order (R41). -/
def resetRegionsFrom (powerOn : Bool) (draw first : Nat) : List Mapping → List Mapping
  | [] => []
  | m :: ms =>
    { m with region := m.region.reset powerOn draw first } :: resetRegionsFrom powerOn draw (first + 1) ms

/-- The byte that region `id` holds at an offset; `none` where there is no such region or offset. -/
def byteAt (maps : List Mapping) (id off : Nat) : Option Byte :=
  match maps[id]? with
  | none => none
  | some m => if off < m.region.len then some (m.region.mem.read off) else none

end Sys2Proof.Machine
end

