-- ==== Sys2Proof/Machine/Flags.lean ====
section
/-! DEFINITION. The condition codes of the status register and the two flag contracts (10_state.md R19 to R21;
41_move.md R89; 42_add.md R93). -/

namespace Sys2Proof.Machine

/-- The five condition codes (R19). -/
inductive Flag where
  | x | n | z | v | c
deriving DecidableEq, Repr

/-- A condition code's bit in the status register (R19; 92_eei_decisions.md D3). -/
def Flag.pos : Flag → Nat
  | .x => 4
  | .n => 3
  | .z => 2
  | .v => 1
  | .c => 0

/-- Reads one condition code of a status register. -/
def getFlag (sr : Half) (f : Flag) : Bool := sr.getLsbD f.pos

/-- Sets one condition code of a status register and leaves every other bit. -/
def setFlag (sr : Half) (f : Flag) (b : Bool) : Half :=
  (sr &&& ~~~(BitVec.twoPow 16 f.pos)) ||| (if b then BitVec.twoPow 16 f.pos else 0)

/-- The privileged bits 15 to 5 of a status register (R20). -/
def privileged (sr : Half) : BitVec 11 := sr.extractLsb' 5 11

/-- N and Z from a result: N is its sign bit, Z says that it is zero (R89). -/
def setNZ (sr : Half) (r : Word) : Half := setFlag (setFlag sr .n r.msb) .z (r == 0)

/-- The move class's flags: N and Z from the result, V and C cleared, X unaffected (R89). -/
def moveFlags (r : Word) (sr : Half) : Half := setFlag (setFlag (setNZ sr r) .v false) .c false

/-- The add class's overflow formula, testing the result's sign bit (R93). -/
def addOverflow (src dst r : Word) : Bool := ((src &&& dst &&& ~~~r) ||| (~~~src &&& ~~~dst &&& r)).msb

/-- The add class's majority-carry formula (R93). -/
def addCarry (src dst r : Word) : Bool := ((src &&& dst) ||| (src &&& ~~~r) ||| (dst &&& ~~~r)).msb

/-- The add class's flags: X and C the carry, N and Z from the result, V the overflow (R93). -/
def addFlags (src dst r : Word) (sr : Half) : Half :=
  setFlag (setFlag (setNZ (setFlag sr .x (addCarry src dst r)) r) .v (addOverflow src dst r)) .c
    (addCarry src dst r)

end Sys2Proof.Machine
end

