-- ==== Sys2Proof/Machine/Ops.lean ====
section
/-! DEFINITION. The named operations over registers: reads and writes, the execute and store stages, the PC
advance, the registers' side of `CpuReset`, and what raising a fault does (40_dispatch.md R78 to R82;
60_exceptions.md R97 to R104; 70_reset_and_hazards.md R113 to R116). -/

namespace Sys2Proof.Machine

/-- Reads `D[r]` (R12, R16). -/
def State.readD (s : State) (r : Reg) : Word := s.d[r]

/-- Reads `A[r]` (R12, R17). -/
def State.readA (s : State) (r : Reg) : Word := s.a[r]

/-- Writes all 32 bits of `D[r]` (R12, R80). -/
def State.writeD (s : State) (r : Reg) (v : Word) : State := { s with d := s.d.set r v }

/-- Writes the status register. -/
def State.setSr (s : State) (v : Half) : State := { s with sr := v }

/-- Advances the program counter by an instruction's length, modulo 2^32 (R82). -/
def State.advance (s : State) (len : Nat) : State := { s with pc := s.pc + BitVec.ofNat 32 len }

/-- The execute stage (R79, R89, R93): the result and the new status register. -/
def execute (kind : OpKind) (src dst : Word) (sr : Half) : Word × Half :=
  match kind with
  | .move => (src, moveFlags src sr)
  | .add  => (src + dst, addFlags src dst (src + dst) sr)

/-- Stages 4 to 7 of a step from the source value on (R73): the destination value is read, the execute stage
gives the result and the flags, then the flags, the destination register and the program counter are written, in
that order (R122). `len` is the instruction's length `2 + L`. -/
def State.finish (s : State) (kind : OpKind) (src : Word) (x : Reg) (len : Nat) : State :=
  let out := execute kind src (s.readD x) s.sr
  ((s.setSr out.2).writeD x out.1).advance len

/-- The bus faults (R97): every fault but `InvalidOpcode`. -/
def Fault.isBus : Fault → Bool
  | .regionNotFound _     => true
  | .regionOutOfRange _ _ => true
  | .badRegionId _        => true
  | .invalidOpcode _ _    => false

/-- What raising a fault leaves: every register, flag and region byte as before (R100). There is no trap entry:
nothing is saved and control goes nowhere (R104). After a bus fault the CPU is not ready until a `CpuReset`
completes (R101); after `InvalidOpcode` it stays ready (R102). -/
def State.raise (s : State) (f : Fault) : State := { s with ready := s.ready && !f.isBus }

/-- The registers' side of a completed `CpuReset` (R113, R115): `A7` and `pc` from the reset vector, every other
register a free value, and the CPU ready. -/
def State.loadVector (s : State) (sp npc : Word) : State :=
  { s with
    d := Vector.ofFn (Config.initData s.draws)
    a := (Vector.ofFn (Config.initAddress s.draws)).set 7 sp
    pc := npc
    sr := Config.initStatus s.draws
    ready := true
    draws := s.draws + 1 }

end Sys2Proof.Machine
end

