-- ==== Sys2Proof/Machine/Operands.lean ====
section
/-! DEFINITION. Operand resolution and the operand renderer (30_encoding.md R58 to R60, R66; 40_dispatch.md R78,
R88). -/

namespace Sys2Proof.Machine

/-- `operand` of R60. `none` where the spec gives the operand no value: modes 2 to 6, the mode-7 forms other than
the immediate, and an immediate whose operand bytes are not four. -/
def State.operand (s : State) (ea : Ea) (opnd : List Byte) : Option Word :=
  match ea with
  | .dataReg r       => some (s.readD r)
  | .addrReg r       => some (s.readA r)
  | .immediate       => if opnd.length = 4 then some (be32 opnd) else none
  | .indirect _      => none
  | .postIncrement _ => none
  | .preDecrement _  => none
  | .displacement _  => none
  | .indexed _       => none
  | .absoluteShort   => none
  | .absoluteLong    => none
  | .pcDisplacement  => none
  | .pcIndexed       => none
  | .unassigned _    => none

/-- `resolveSrc` (R78): the window of the live opcode selects the operand (R65). -/
def State.resolveSrc (s : State) (d : Descriptor) (op : Half) (opnd : List Byte) : Option Word :=
  s.operand (classify (d.src.window op).1 (d.src.window op).2) opnd

/-- One octal digit. -/
def digit (r : BitVec 3) : String := ["0", "1", "2", "3", "4", "5", "6", "7"].getD r.toNat ""

/-- The operand renderer of the decoder (R88). -/
def renderOperand (mode reg : BitVec 3) : String :=
  match mode.toNat with
  | 0 => "d" ++ digit reg
  | 1 => "a" ++ digit reg
  | 2 => "(a" ++ digit reg ++ ")"
  | 3 => "(a" ++ digit reg ++ ")+"
  | 4 => "-(a" ++ digit reg ++ ")"
  | _ => "<unhandled>"

/-- One upper-case hexadecimal digit. -/
def hexDigit (n : BitVec 4) : String :=
  ["0", "1", "2", "3", "4", "5", "6", "7", "8", "9", "A", "B", "C", "D", "E", "F"].getD n.toNat ""

/-- A 32-bit value as eight upper-case hexadecimal digits (R87). -/
def hex8 (v : Word) : String :=
  hexDigit (v.extractLsb' 28 4) ++ hexDigit (v.extractLsb' 24 4) ++ hexDigit (v.extractLsb' 20 4)
    ++ hexDigit (v.extractLsb' 16 4) ++ hexDigit (v.extractLsb' 12 4) ++ hexDigit (v.extractLsb' 8 4)
    ++ hexDigit (v.extractLsb' 4 4) ++ hexDigit (v.extractLsb' 0 4)

/-- The text of an instruction (R87; P_RENDER, log entry 15): the mnemonic, a space, the source, a comma, the destination register. -/
def render (d : Descriptor) (op : Half) (opnd : List Byte) : String :=
  d.render.mnemonic ++ " "
    ++ (match d.render.source with
        | .operand   => renderOperand (d.src.window op).1 (d.src.window op).2
        | .immediate => "#$" ++ hex8 (be32 opnd))
    ++ "," ++ renderOperand 0 (regField (d.dst.reg op))

end Sys2Proof.Machine
end

