-- ==== Sys2Proof/Machine/Add.lean ====
section
/-! DEFINITION. The add-class instructions (42_add.md R93 to R96). Each is stages 4 to 7 of the step; the fetch
(stages 1 to 3) is the step's. -/

namespace Sys2Proof.Machine

/-- `ADD.L Dy,Dx` (R94). -/
def execAddDyDx (y x : Reg) (s : State) : Host.Outcome State Fault Refusal :=
  .next (s.finish .add (s.readD y) x 2)

/-- `ADD.L Ay,Dx` (R95). -/
def execAddAyDx (y x : Reg) (s : State) : Host.Outcome State Fault Refusal :=
  .next (s.finish .add (s.readA y) x 2)

/-- `ADD.L #imm,Dx` (R96). -/
def execAddImmDx (imm : Word) (x : Reg) (s : State) : Host.Outcome State Fault Refusal :=
  .next (s.finish .add imm x 6)

end Sys2Proof.Machine
end

