-- ==== Sys2Proof/Machine/Move.lean ====
section
/-! DEFINITION. The move-class instructions (41_move.md R89 to R92). Each is stages 4 to 7 of the step; the
fetch (stages 1 to 3) is the step's. -/

namespace Sys2Proof.Machine

/-- `MOVE.L Dy,Dx` (R90). -/
def execMoveDyDx (y x : Reg) (s : State) : Host.Outcome State Fault Refusal :=
  .next (s.finish .move (s.readD y) x 2)

/-- `MOVE.L Ay,Dx` (R91). -/
def execMoveAyDx (y x : Reg) (s : State) : Host.Outcome State Fault Refusal :=
  .next (s.finish .move (s.readA y) x 2)

/-- `MOVE.L #imm,Dx` (R92). -/
def execMoveImmDx (imm : Word) (x : Reg) (s : State) : Host.Outcome State Fault Refusal :=
  .next (s.finish .move imm x 6)

end Sys2Proof.Machine
end

