-- ==== Sys2Proof/Machine/Dispatch.lean ====
section
/-! DEFINITION. One arm per instruction of the default table (30_encoding.md R67). -/

namespace Sys2Proof.Machine

def exec (i : Instr) (s : State) : Host.Outcome State Fault Refusal :=
  match i with
  | .moveDyDx y x => Sys2Proof.Machine.execMoveDyDx y x s
  | .moveAyDx y x => Sys2Proof.Machine.execMoveAyDx y x s
  | .moveImmDx imm x => Sys2Proof.Machine.execMoveImmDx imm x s
  | .addDyDx y x => Sys2Proof.Machine.execAddDyDx y x s
  | .addAyDx y x => Sys2Proof.Machine.execAddAyDx y x s
  | .addImmDx imm x => Sys2Proof.Machine.execAddImmDx imm x s

end Sys2Proof.Machine
end

