-- ==== Sys2Proof/Machine/Fetch.lean ====
section
/-! DEFINITION. Stages 1 to 3 of a step: the opcode fetch, the table lookup and the operand fetch, shared by the
step and the disassembler (40_dispatch.md R75 to R77, R84); and how an instruction is placed where the next step
fetches it. -/

namespace Sys2Proof.Machine

/-- The address right after the opcode word at `a`, modulo 2^32 (R77). -/
def operandAddr (a : Word) : Word := a + 2

/-- Stage 3: one routed read of the `n` operand bytes after the opcode word at `a`; no bus access at all when
`n = 0` (R77). -/
def fetchOperand (maps : List Mapping) (a : Word) (n : Nat) : Except Fault (List Byte) :=
  if n = 0 then .ok [] else memRead maps (operandAddr a) n

/-- Stages 1 to 3 at the address `a` over the table `t`: the descriptor, the opcode word and the operand bytes.
The first raise ends it (R103): the opcode fetch's bus fault, then `InvalidOpcode`, then the operand fetch's. -/
def fetch (t : Table) (maps : List Mapping) (a : Word) :
    Except Fault (Descriptor × Half × List Byte) :=
  match memRead maps a 2 with
  | .error f => .error f
  | .ok ob =>
    match lookupDesc t (be16 ob) with
    | none => .error (.invalidOpcode a (be16 ob))
    | some d =>
      match fetchOperand maps a d.operandBytes with
      | .error f => .error f
      | .ok opnd => .ok (d, be16 ob, opnd)

/-- Stages 1 to 3 at the program counter over the default table, with the fetched instruction. The inner `none`
is not reached: every row of the default table resolves (R60, R67). -/
def State.fetchInstr (s : State) : Except Fault Instr :=
  match fetch defaultTable s.maps s.pc with
  | .error f => .error f
  | .ok (d, op, opnd) =>
    match Instr.ofDescriptor d op opnd with
    | none => .error (.invalidOpcode s.pc op)
    | some i => .ok i

/-- Mappings in which the opcode bytes `ob` stand at `a` and the operand bytes `opnd` right after them. Where
routed writes reach both places, they are written there and nothing else changes. Where one does not, two regions
holding just them are put before the other mappings; the operand's comes first because the opcode region's
inclusive end claims the operand's address (R35). -/
def placeBytes (maps : List Mapping) (a : Word) (ob opnd : List Byte) : List Mapping :=
  let inFront : List Mapping :=
    { base := (operandAddr a).toNat, region := { len := opnd.length, mem := Memory.writeBytes [] 0 opnd } }
      :: { base := a.toNat, region := { len := ob.length, mem := Memory.writeBytes [] 0 ob } } :: maps
  match memWrite maps a ob with
  | .error _ => inFront
  | .ok maps' =>
    match memWrite maps' (operandAddr a) opnd with
    | .error _ => inFront
    | .ok maps'' => maps''

/-- The state in which the next step fetches and runs the instruction whose bytes (three 16-bit words) are given:
they stand at the program counter, and the CPU is ready. -/
def State.placeInstr (s : State) (bytes : List Byte) : State :=
  { s with maps := placeBytes s.maps s.pc (bytes.take 2) (bytes.drop 2), ready := true }

end Sys2Proof.Machine
end

