-- ==== Sys2Proof/Machine/Step.lean ====
section
/-! DEFINITION. One step over the default table (40_dispatch.md R73, R74). -/

namespace Sys2Proof.Machine

/-- `Step` (R73): refused while the CPU is not ready (R74); otherwise the fetched instruction runs, or the fetch's
fault ends the step (R81). -/
def step (s : State) : Host.Outcome State Fault Refusal :=
  if s.ready then
    match s.fetchInstr with
    | .error f => .fault f
    | .ok i => exec i s
  else .refused .cpuNotReady

/-- The state with one instruction, numbered as spec/opcode_table.json numbers its bits, stored where the next
step fetches (log entry 6). -/
def State.withFetchWord (s : State) (nbits w : Nat) : State := s.placeInstr (tableWordBytes nbits w)

end Sys2Proof.Machine
end

