-- ==== Sys2Proof/Machine/Engine.lean ====
section
/-! DEFINITION. The engine with the descriptor table as a parameter (30_encoding.md R61 to R65; 40_dispatch.md
R73 to R88): the step and the disassembler that run whatever descriptors the table holds. -/

namespace Sys2Proof.Machine

/-- `Step` over the table `t` (R73). An ill-formed table is refused (R62), and so is a step of a CPU that is not
ready (R74). A row whose source operand the spec gives no value is refused before anything is written (R60, R81). -/
def stepWith (t : Table) (s : State) : Host.Outcome State Fault Refusal :=
  if t.wf then
    if s.ready then
      match fetch t s.maps s.pc with
      | .error f => .fault f
      | .ok (d, op, opnd) =>
        match s.resolveSrc d op opnd with
        | none => .refused (.unresolvedOperand s.pc op)
        | some src => .next (s.finish d.kind src (d.dst.reg op) (2 + d.operandBytes))
    else .refused .cpuNotReady
  else .refused .illFormedTable

/-- `Disassemble` over the table `t` at the address `a` (R84): the text (R87) and the instruction's length (R86).
It reads the bus and nothing else, so it writes nothing (R85), and it does not ask whether the CPU is ready. -/
def disassemble (t : Table) (maps : List Mapping) (a : Word) : Except Fault (String × Nat) :=
  match fetch t maps a with
  | .error f => .error f
  | .ok (d, op, opnd) => .ok (render d op opnd, 2 + d.operandBytes)

end Sys2Proof.Machine
end

