-- ==== Sys2Proof/Machine/Transactions.lean ====
section
/-! DEFINITION. The block's interface: the nine transactions the host can ask for, each one request and one
response (00_scope.md R6, R7; 70_reset_and_hazards.md R113 to R120). -/

namespace Sys2Proof.Machine

/-- A request of the host (R7). -/
inductive Transaction where
  /-- Attach a region at a base address (R33). -/
  | busAttach (addr : Word) (g : Region)
  /-- Reset every attached region (R41). -/
  | busReset (powerOn : Bool)
  /-- Routed read of `n` bytes (R36). -/
  | busRead (addr : Word) (n : Nat)
  /-- Routed write (R37). -/
  | busWrite (addr : Word) (bytes : List Byte)
  /-- Read of `n` bytes of an identified region (R39). -/
  | busReadId (id : Nat) (addr : Word) (n : Nat)
  /-- Write to an identified region (R40). -/
  | busWriteId (id : Nat) (addr : Word) (bytes : List Byte)
  /-- Reset the CPU (R113). -/
  | cpuReset
  /-- Run one instruction (R73). -/
  | step
  /-- Disassemble the instruction at an address (R84). -/
  | disassemble (addr : Word)
deriving DecidableEq, Repr

/-- A response to the host (R7). -/
inductive Response where
  /-- Done, or a completed step's `Ok`. -/
  | done
  /-- The identifier of the region just attached. -/
  | attached (id : Nat)
  /-- The bytes read. -/
  | bytes (bs : List Byte)
  /-- The text and the length of a disassembled instruction. -/
  | text (t : String) (len : Nat)
  /-- The transaction raised. -/
  | fault (f : Fault)
  /-- The transaction is not admitted. -/
  | refused (r : Refusal)
deriving DecidableEq, Repr

/-- `BusAttach` (R33). A `BusReset` must follow before the next `CpuReset` (R117). -/
def busAttach (s : State) (addr : Word) (g : Region) : State :=
  { s with maps := attach s.maps addr g, busReset := false }

/-- `BusReset` (R41): every region is reset, the map and the registers stay (R27). A warm reset takes a draw
(R31). -/
def busReset (s : State) (powerOn : Bool) : State :=
  { s with
    maps := resetRegionsFrom powerOn s.draws 0 s.maps
    busReset := true
    draws := if powerOn then s.draws else s.draws + 1 }

/-- The answer to a read: the bytes and the state as it was, or the fault raised. -/
def answerRead (s : State) (r : Except Fault (List Byte)) : State × Response :=
  match r with
  | .ok bs => (s, .bytes bs)
  | .error f => (s.raise f, .fault f)

/-- The answer to a write: the new mappings, or the fault raised with no byte written. -/
def answerWrite (s : State) (r : Except Fault (List Mapping)) : State × Response :=
  match r with
  | .ok maps => ({ s with maps := maps }, .done)
  | .error f => (s.raise f, .fault f)

/-- `CpuReset` (R113): refused unless a `BusReset` has come since the last attachment (R117); otherwise the stack
pointer is read at 0, then the program counter at 4. A bus fault of either read writes no register and leaves the
CPU not ready (R116). -/
def cpuReset (s : State) : State × Response :=
  if s.busReset then
    match memRead s.maps 0 4 with
    | .error f => (s.raise f, .fault f)
    | .ok sp =>
      match memRead s.maps 4 4 with
      | .error f => (s.raise f, .fault f)
      | .ok npc => (s.loadVector (be32 sp) (be32 npc), .done)
  else (s, .refused .busNotReset)

/-- The answer to a `Step`: the outcome's state and response. -/
def answerStep (s : State) (o : Host.Outcome State Fault Refusal) : State × Response :=
  match o with
  | .next s' => (s', .done)
  | .fault f => (s.raise f, .fault f)
  | .refused r => (s, .refused r)

/-- The answer to a `Disassemble`. -/
def answerText (s : State) (r : Except Fault (String × Nat)) : State × Response :=
  match r with
  | .ok (text, len) => (s, .text text len)
  | .error f => (s.raise f, .fault f)

/-- One transaction of a block whose descriptor table is `t`: the state after it and the response. A block with
an ill-formed table refuses every transaction (R62; DESIGN CHOICE, log entry 13), and a refusal leaves the state as it
was (DEDUCED, log entry 9). -/
def transactWith (t : Table) (s : State) (tx : Transaction) : State × Response :=
  if t.wf then
    match tx with
    | .busAttach addr g      => (busAttach s addr g, .attached s.maps.length)
    | .busReset powerOn      => (busReset s powerOn, .done)
    | .busRead addr n        => answerRead s (memRead s.maps addr n)
    | .busWrite addr bs      => answerWrite s (memWrite s.maps addr bs)
    | .busReadId id addr n   => answerRead s (readId s.maps id addr n)
    | .busWriteId id addr bs => answerWrite s (writeId s.maps id addr bs)
    | .cpuReset              => cpuReset s
    | .step                  => answerStep s (stepWith t s)
    | .disassemble addr      => answerText s (disassemble t s.maps addr)
  else (s, .refused .illFormedTable)

/-- A sequence of transactions: the state after the last. No two overlap in time (R6). -/
def runWith (t : Table) (s : State) : List Transaction → State
  | [] => s
  | tx :: txs => runWith t (transactWith t s tx).1 txs

end Sys2Proof.Machine
end

