-- ==== Sys2Proof/Safety.lean ====
section
/-! DEFINITION. The terms the claims use: the invariant of the state, what an instruction leaves unchanged, the
effects of the two instruction classes in plain arithmetic, and what a run without a bus fault is. -/

namespace Sys2Proof.Machine

/-! The invariant. -/

/-- A mapping's base is a 32-bit address (R33), and its region's contents are in canonical form within its length
(R29). -/
abbrev Mapping.wf (m : Mapping) : Prop := m.base < 2 ^ 32 ∧ m.region.wf

/-- The invariant of the state: every mapping is well formed. -/
abbrev State.wf (s : State) : Prop := ∀ m ∈ s.maps, m.wf

/-! Fetches. -/

/-- The opcode word at `a` asks for an operand fetch of `n` bytes: its row in the table `t` has `L = n`, and `n` is
not 0 (R77). -/
def AsksOperand (t : Table) (maps : List Mapping) (a : Word) (n : Nat) : Prop :=
  n ≠ 0 ∧ ∃ ob d, memRead maps a 2 = .ok ob ∧ lookupDesc t (be16 ob) = some d ∧ d.operandBytes = n

/-! Frames. -/

/-- Reading one byte gives the same answer over both maps, at every address and through every identifier. -/
def SameBytes (maps maps' : List Mapping) : Prop :=
  (∀ addr : Word, memRead maps' addr 1 = memRead maps addr 1) ∧
  (∀ (id : Nat) (addr : Word), readId maps' id addr 1 = readId maps id addr 1)

/-- What every instruction of the default table leaves and where it goes on: all state but `D[x]` and the
condition codes, with the program counter moved past the instruction's `len` bytes. -/
structure InstrFrame (s t : State) (x : Reg) (len : Nat) : Prop where
  /-- Every data register but the destination. -/
  otherData : ∀ r, r ≠ x → t.readD r = s.readD r
  /-- Every address register, the stack pointer among them. -/
  addresses : ∀ r, t.readA r = s.readA r
  /-- The program counter, modulo 2^32 (R82). -/
  pc : t.pc = s.pc + BitVec.ofNat 32 len
  /-- `sr[15:5]` (R20). -/
  privilegedBits : privileged t.sr = privileged s.sr
  /-- Every byte of memory, through the machine's own reads of one byte. -/
  bytes : SameBytes s.maps t.maps
  /-- The mappings, with all the regions hold. -/
  maps : t.maps = s.maps
  /-- The two admission conditions and the count of draws. -/
  ready : t.ready = s.ready
  busReset : t.busReset = s.busReset
  draws : t.draws = s.draws

/-- The effect of a move-class instruction with the source value `v` on `D[x]` (R89): the result is the source
value; N is its sign, Z says it is zero, V and C are cleared, X is unaffected. -/
structure MoveEffect (s t : State) (v : Word) (x : Reg) (len : Nat) : Prop where
  result : t.readD x = v
  extend : getFlag t.sr .x = getFlag s.sr .x
  negative : getFlag t.sr .n = true ↔ v.toInt < 0
  zero : getFlag t.sr .z = true ↔ v.toNat = 0
  overflow : getFlag t.sr .v = false
  carry : getFlag t.sr .c = false
  frame : InstrFrame s t x len

/-- The effect of an add-class instruction with the source value `v` on `D[x]` (R93), in plain arithmetic: the
result is the sum modulo 2^32; C and X both say that the unsigned sum is at least 2^32; V says that the signed sum
lies outside the 32-bit range; C and V are also what the rule's bitwise formulas give; N is the result's sign, Z says
it is zero. -/
structure AddEffect (s t : State) (v : Word) (x : Reg) (len : Nat) : Prop where
  result : (t.readD x).toNat = (v.toNat + (s.readD x).toNat) % 2 ^ 32
  extend : getFlag t.sr .x = true ↔ 2 ^ 32 ≤ v.toNat + (s.readD x).toNat
  carry : getFlag t.sr .c = true ↔ 2 ^ 32 ≤ v.toNat + (s.readD x).toNat
  overflow : getFlag t.sr .v = true ↔
    v.toInt + (s.readD x).toInt < -2 ^ 31 ∨ 2 ^ 31 ≤ v.toInt + (s.readD x).toInt
  /-- The majority formula of R93, at bit 31. -/
  carryFormula : getFlag t.sr .c =
    ((v &&& s.readD x) ||| (v &&& ~~~(t.readD x)) ||| (s.readD x &&& ~~~(t.readD x))).getLsbD 31
  /-- The overflow formula of R93, at bit 31. -/
  overflowFormula : getFlag t.sr .v =
    ((v &&& s.readD x &&& ~~~(t.readD x)) ||| (~~~v &&& ~~~(s.readD x) &&& t.readD x)).getLsbD 31
  negative : getFlag t.sr .n = true ↔ (t.readD x).toInt < 0
  zero : getFlag t.sr .z = true ↔ (t.readD x).toNat = 0
  frame : InstrFrame s t x len

/-! Runs. -/

/-- A response that reports a bus fault (R97, R101). -/
def Response.isBusFault : Response → Bool
  | .fault f     => f.isBus
  | .done        => false
  | .attached _  => false
  | .bytes _     => false
  | .text _ _    => false
  | .refused _   => false

/-- A safe run: no transaction of the sequence reports a bus fault. -/
def SafeRun (t : Table) (s : State) : List Transaction → Prop
  | [] => True
  | tx :: txs => (transactWith t s tx).2.isBusFault = false ∧ SafeRun t (transactWith t s tx).1 txs

/-- No `CpuReset` of the sequence completes; one that is refused or raises may stand in it. -/
def NoCompletedReset (t : Table) (s : State) : List Transaction → Prop
  | [] => True
  | tx :: txs =>
    ¬ (tx = .cpuReset ∧ (transactWith t s tx).2 = .done) ∧ NoCompletedReset t (transactWith t s tx).1 txs

end Sys2Proof.Machine
end

