-- ==== Sys2Proof/Certificates/Slice0/Obligations.lean ====
section
/-! DEFINITION. The statements for the provers. Each docstring names the rule of spec/ it formalises. -/

open Sys2Proof Sys2Proof.Machine

section encoding

/-- Decoding an encoded instruction, whatever bytes follow it, gives the instruction and those bytes back, for
every instruction of the default table with every operand (R53, R54, R65 to R69). -/
def Obligations.DecodeOfEncodeIsInstruction : Prop :=
  ∀ (i : Instr) (rest : List Byte), decode (encode i ++ rest) = .ok (i, rest)

/-- Bytes that decode to an instruction are that instruction's encoding and the bytes after it: no two words stand
for one instruction (R53, R54, R65 to R69). -/
def Obligations.DecodedBytesAreEncoding : Prop :=
  ∀ (bs : List Byte) (i : Instr) (rest : List Byte), decode bs = .ok (i, rest) → bs = encode i ++ rest

/-- Words written out bit by bit from R67 decode to the instructions they stand for, and neighbouring words that
R70 makes illegal do not (95_test_vectors.md 2.3). -/
def Obligations.WordsOfTheTableDecode : Prop :=
  decode (bytesBE16 0b0010000000000001) = .ok (.moveDyDx 1 0, []) ∧
  decode (bytesBE16 0b0010011000001111) = .ok (.moveAyDx 7 3, []) ∧
  decode (bytesBE16 0b0010111000111100 ++ [0x80, 0x00, 0x00, 0x01]) = .ok (.moveImmDx 0x80000001 7, []) ∧
  decode (bytesBE16 0b1101000010000001) = .ok (.addDyDx 1 0, []) ∧
  decode (bytesBE16 0b1101010010001001) = .ok (.addAyDx 1 2, []) ∧
  decode (bytesBE16 0b1101000010111100 ++ [0x00, 0x00, 0x00, 0x01]) = .ok (.addImmDx 1 0, []) ∧
  decode (bytesBE16 0b0010000000111011) = .error (.invalidOpcode 0x203B) ∧
  decode (bytesBE16 0b0010000001000000) = .error (.invalidOpcode 0x2040) ∧
  decode (bytesBE16 0b1101000001000001) = .error (.invalidOpcode 0xD041)

/-- The default table holds a row for exactly the opcode words of its instructions: every other 16-bit value is
illegal (R67, R70). -/
def Obligations.ValidOpcodesAreTheInstructions : Prop :=
  ∀ op : Half, (∃ d, lookupDesc defaultTable op = some d) ↔ ∃ i : Instr, i.opcode = op

/-- R57 and R62: the well-formed tables are those in which every pattern lies within its mask, every window
parameter is between 5 and 15, every destination field lies in the opcode word, and no opcode value matches two rows;
a machine with another table refuses every transaction and changes nothing. That the refusal takes this form, and
that a destination field is between 2 and 15, are the model's (log entries 9, 13 and 4). -/
def Obligations.WellFormedTableMatchesOneRow : Prop :=
  ∀ t : Table,
    (t.wf = true ↔
      (∀ r ∈ t, r.pattern &&& ~~~r.mask = 0 ∧
        (∀ layout top, r.desc.src = .ea layout top → 5 ≤ top ∧ top ≤ 15) ∧
        (∀ hi, r.desc.dst = .dataReg hi → 2 ≤ hi ∧ hi ≤ 15)) ∧
      t.Pairwise (fun r r' => ∀ op : Half, ¬ (op &&& r.mask = r.pattern ∧ op &&& r'.mask = r'.pattern))) ∧
    (t.wf = false → ∀ s tx, transactWith t s tx = (s, .refused .illFormedTable))

/-- R63: in a well-formed table the lookup gives the descriptor of the row that matches, whichever place it has,
and none where no row matches; a step at such an opcode raises `InvalidOpcode` with the program counter. -/
def Obligations.LookupGivesTheMatchingRow : Prop :=
  ∀ (t : Table) (op : Half), t.wf = true →
    (∀ r ∈ t, op &&& r.mask = r.pattern → lookupDesc t op = some r.desc) ∧
    ((∀ r ∈ t, op &&& r.mask ≠ r.pattern) → lookupDesc t op = none ∧
      ∀ s : State, s.ready = true → memRead s.maps s.pc 2 = .ok (bytesBE16 op) →
        stepWith t s = .fault (.invalidOpcode s.pc op))

/-- R64: a table of exact rows (mask `0xFFFF`) is keyed by the 16-bit opcode value. -/
def Obligations.ExactRowsKeyByOpcodeValue : Prop :=
  ∀ (t : Table) (op : Half), (∀ r ∈ t, r.mask = 0xFFFF) →
    lookupDesc t op = (t.find? (fun r => r.pattern == op)).map Row.desc

/-- R55 and R56: which opcode bits the mode and the register of a window are, in both layouts, at every legal
window parameter; with the two examples of those rules. -/
def Obligations.WindowsSelectModeAndRegister : Prop :=
  (∀ (op : Half) (b k : Nat), 5 ≤ b → b ≤ 15 → k < 3 →
    (decodeRM op b).1.getLsbD k = op.getLsbD (b - 5 + k) ∧
    (decodeRM op b).2.getLsbD k = op.getLsbD (b - 2 + k) ∧
    (decodeMR op b).1.getLsbD k = op.getLsbD (b - 2 + k) ∧
    (decodeMR op b).2.getLsbD k = op.getLsbD (b - 5 + k)) ∧
  decodeRM 0x2200 11 = (0, 1) ∧ decodeMR 0x203C 5 = (7, 4)

end encoding

section instructions

/-- R89: every move-class instruction answers a next state, with the source value in `D[x]`, N and Z from it, V and
C cleared, X unaffected, and everything else but the program counter unchanged. The source may be the destination
register itself. -/
def Obligations.MoveInstructionsComplete : Prop :=
  ∀ (s : State) (y x : Reg) (imm : Word),
    (∃ t, exec (.moveDyDx y x) s = .next t ∧ MoveEffect s t (s.readD y) x 2) ∧
    (∃ t, exec (.moveAyDx y x) s = .next t ∧ MoveEffect s t (s.readA y) x 2) ∧
    (∃ t, exec (.moveImmDx imm x) s = .next t ∧ MoveEffect s t imm x 6)

/-- R93: every add-class instruction answers a next state, with the sum modulo 2^32 in `D[x]`, C and X the unsigned
carry, V the signed overflow, N and Z from the result, and everything else but the program counter unchanged. Both
addends are read before the write, so the source may be the destination register itself. -/
def Obligations.AddInstructionsComplete : Prop :=
  ∀ (s : State) (y x : Reg) (imm : Word),
    (∃ t, exec (.addDyDx y x) s = .next t ∧ AddEffect s t (s.readD y) x 2) ∧
    (∃ t, exec (.addAyDx y x) s = .next t ∧ AddEffect s t (s.readA y) x 2) ∧
    (∃ t, exec (.addImmDx imm x) s = .next t ∧ AddEffect s t imm x 6)

/-- R94's corner case: adding a register to itself doubles its old value, C and X are its old bit 31, and V says
that its old bits 31 and 30 differ. -/
def Obligations.AddToItselfDoubles : Prop :=
  ∀ (s : State) (x : Reg), ∃ t, exec (.addDyDx x x) s = .next t ∧
    (t.readD x).toNat = 2 * (s.readD x).toNat % 2 ^ 32 ∧
    getFlag t.sr .c = (s.readD x).getLsbD 31 ∧ getFlag t.sr .x = (s.readD x).getLsbD 31 ∧
    getFlag t.sr .v = ((s.readD x).getLsbD 31 ^^ (s.readD x).getLsbD 30)

/-- R96's corner cases: adding the immediate `0xFFFFFFFF` subtracts 1, with C and X set unless the register holds 0;
adding the immediate 0 leaves the register and clears X, C and V. -/
def Obligations.AddImmediateCornerCases : Prop :=
  ∀ (s : State) (x : Reg),
    (∃ t, exec (.addImmDx 0xFFFFFFFF x) s = .next t ∧ t.readD x = s.readD x - 1 ∧
      (getFlag t.sr .c = true ↔ s.readD x ≠ 0) ∧ (getFlag t.sr .x = true ↔ s.readD x ≠ 0)) ∧
    (∃ t, exec (.addImmDx 0 x) s = .next t ∧ t.readD x = s.readD x ∧
      getFlag t.sr .x = false ∧ getFlag t.sr .c = false ∧ getFlag t.sr .v = false)

end instructions

section steps

/-- R73: when the bytes at the program counter decode to an instruction, a step of a ready CPU is that instruction's
meaning at that state. The operand bytes are read on their own, right after the opcode word modulo 2^32, and not at
all where the instruction has none (R77). -/
def Obligations.StepRunsDecodedInstruction : Prop :=
  ∀ (s : State) (i : Instr) (ob opnd : List Byte),
    s.ready = true → memRead s.maps s.pc 2 = .ok ob → decode (ob ++ opnd) = .ok (i, []) →
    (opnd ≠ [] → memRead s.maps (s.pc + 2) opnd.length = .ok opnd) →
    step s = exec i s

/-- R90, R91, R92: what a step does when the word at the program counter is a MOVE row's, with the row's bits
written out. A bus fault of the opcode fetch, or of an immediate's operand fetch, ends the step with nothing
changed but that the CPU is no longer ready (R101); an immediate whose place is routed to the end of a region, as
after an opcode word in that region's last two bytes, raises `RegionOutOfRange`. -/
def Obligations.StepRunsMoveRows : Prop :=
  ∀ (s : State) (y x : BitVec 3), s.ready = true →
    (memRead s.maps s.pc 2 = .ok (bytesBE16 (0b0010#4 ++ x ++ 0b000000#6 ++ y)) →
      ∃ t, step s = .next t ∧ MoveEffect s t (s.readD y.toFin) x.toFin 2) ∧
    (memRead s.maps s.pc 2 = .ok (bytesBE16 (0b0010#4 ++ x ++ 0b000001#6 ++ y)) →
      ∃ t, step s = .next t ∧ MoveEffect s t (s.readA y.toFin) x.toFin 2) ∧
    (memRead s.maps s.pc 2 = .ok (bytesBE16 (0b0010#4 ++ x ++ 0b000111100#9)) →
      (∀ b0 b1 b2 b3, memRead s.maps (s.pc + 2) 4 = .ok [b0, b1, b2, b3] →
        ∃ t, step s = .next t ∧ MoveEffect s t (b0 ++ b1 ++ b2 ++ b3) x.toFin 6) ∧
      (∀ f, memRead s.maps (s.pc + 2) 4 = .error f →
        (f = .regionNotFound (s.pc + 2) ∨ f = .regionOutOfRange (s.pc + 2) 4) ∧
        step s = .fault f ∧ transactWith defaultTable s .step = ({ s with ready := false }, .fault f)) ∧
      (∀ id m, lookup s.maps (s.pc + 2).toNat = some (id, m) → (s.pc + 2).toNat = m.base + m.region.len →
        step s = .fault (.regionOutOfRange (s.pc + 2) 4))) ∧
    (∀ f, memRead s.maps s.pc 2 = .error f →
      (f = .regionNotFound s.pc ∨ f = .regionOutOfRange s.pc 2) ∧
      step s = .fault f ∧ transactWith defaultTable s .step = ({ s with ready := false }, .fault f))

/-- R94, R95, R96: what a step does when the word at the program counter is an ADD row's, with the row's bits
written out; the faults as for the MOVE rows. -/
def Obligations.StepRunsAddRows : Prop :=
  ∀ (s : State) (y x : BitVec 3), s.ready = true →
    (memRead s.maps s.pc 2 = .ok (bytesBE16 (0b1101#4 ++ x ++ 0b010000#6 ++ y)) →
      ∃ t, step s = .next t ∧ AddEffect s t (s.readD y.toFin) x.toFin 2) ∧
    (memRead s.maps s.pc 2 = .ok (bytesBE16 (0b1101#4 ++ x ++ 0b010001#6 ++ y)) →
      ∃ t, step s = .next t ∧ AddEffect s t (s.readA y.toFin) x.toFin 2) ∧
    (memRead s.maps s.pc 2 = .ok (bytesBE16 (0b1101#4 ++ x ++ 0b010111100#9)) →
      (∀ b0 b1 b2 b3, memRead s.maps (s.pc + 2) 4 = .ok [b0, b1, b2, b3] →
        ∃ t, step s = .next t ∧ AddEffect s t (b0 ++ b1 ++ b2 ++ b3) x.toFin 6) ∧
      (∀ f, memRead s.maps (s.pc + 2) 4 = .error f →
        (f = .regionNotFound (s.pc + 2) ∨ f = .regionOutOfRange (s.pc + 2) 4) ∧
        step s = .fault f ∧ transactWith defaultTable s .step = ({ s with ready := false }, .fault f)) ∧
      (∀ id m, lookup s.maps (s.pc + 2).toNat = some (id, m) → (s.pc + 2).toNat = m.base + m.region.len →
        step s = .fault (.regionOutOfRange (s.pc + 2) 4))) ∧
    (∀ f, memRead s.maps s.pc 2 = .error f →
      (f = .regionNotFound s.pc ∨ f = .regionOutOfRange s.pc 2) ∧
      step s = .fault f ∧ transactWith defaultTable s .step = ({ s with ready := false }, .fault f))

/-- R75, R76, R77 and their order (R103): the opcode fetch's bus faults, then `InvalidOpcode` before any operand
byte is fetched, then the operand fetch's bus faults at the address right after the opcode word; with none of them
the step completes, and with no operand bytes there is no operand fetch to fail. -/
def Obligations.StepFaultsInStageOrder : Prop :=
  ∀ s : State, s.ready = true →
    (lookup s.maps s.pc.toNat = none → step s = .fault (.regionNotFound s.pc)) ∧
    (∀ id m, lookup s.maps s.pc.toNat = some (id, m) → m.base + m.region.len < s.pc.toNat + 2 →
      step s = .fault (.regionOutOfRange s.pc 2)) ∧
    (∀ ob, memRead s.maps s.pc 2 = .ok ob →
      (lookupDesc defaultTable (be16 ob) = none → step s = .fault (.invalidOpcode s.pc (be16 ob))) ∧
      (∀ d, lookupDesc defaultTable (be16 ob) = some d →
        (d.operandBytes = 0 → ∃ t, step s = .next t) ∧
        (d.operandBytes ≠ 0 →
          (lookup s.maps (s.pc + 2).toNat = none → step s = .fault (.regionNotFound (s.pc + 2))) ∧
          (∀ id m, lookup s.maps (s.pc + 2).toNat = some (id, m) →
            (m.base + m.region.len < (s.pc + 2).toNat + d.operandBytes →
              step s = .fault (.regionOutOfRange (s.pc + 2) d.operandBytes)) ∧
            ((s.pc + 2).toNat + d.operandBytes ≤ m.base + m.region.len → ∃ t, step s = .next t)))))

/-- R74, R97, R99: a step of a CPU that is not ready is refused; a step of a ready one is never refused, and
completes or ends in one of the faults a step can raise, at the program counter or right after the opcode word. -/
def Obligations.StepRefusedExactlyWhenNotReady : Prop :=
  ∀ s : State,
    (s.ready = false → step s = .refused .cpuNotReady) ∧
    (s.ready = true →
      (∃ t, step s = .next t) ∨ step s = .fault (.regionNotFound s.pc) ∨
      step s = .fault (.regionOutOfRange s.pc 2) ∨ (∃ op, step s = .fault (.invalidOpcode s.pc op)) ∨
      step s = .fault (.regionNotFound (s.pc + 2)) ∨ step s = .fault (.regionOutOfRange (s.pc + 2) 4))

/-- R20, R80, R82: whatever the table, a completed step changes only the data register that the live opcode's
destination field names, the condition codes, and the program counter, which moves on by `2 + L`. -/
def Obligations.CompletedStepFrame : Prop :=
  ∀ (t : Table) (s s' : State), stepWith t s = .next s' →
    ∃ ob d, memRead s.maps s.pc 2 = .ok ob ∧ lookupDesc t (be16 ob) = some d ∧
      InstrFrame s s' (d.dst.reg (be16 ob)) (2 + d.operandBytes)

/-- R61, R65, R73: the table-driven engine over the default table and the step that dispatches on decoded
instructions are one function; and over every well-formed table the transaction `Step` goes to the engine's next state
and answers `Ok`, reports its fault, or is refused as it is (R7). What a raise leaves in the bit of readiness and what a
refusal leaves are the model's reading (log entries 7 and 9). -/
def Obligations.TableEngineAgreesWithDispatch : Prop :=
  (∀ s : State, stepWith defaultTable s = step s) ∧
  (∀ (t : Table) (s : State), t.wf = true →
    (∀ s', stepWith t s = .next s' → transactWith t s .step = (s', .done)) ∧
    (∀ f, stepWith t s = .fault f →
      transactWith t s .step = ({ s with ready := s.ready && !f.isBus }, .fault f)) ∧
    (∀ r, stepWith t s = .refused r → transactWith t s .step = (s, .refused r)))

/-- R26, R77, R83: a step sees nothing of memory but the opcode bytes and the operand bytes it fetches: two states
that agree on the registers, on readiness, on the opcode bytes and, where the row of that opcode has operand bytes, on
those, step alike. A row without operand bytes and an invalid opcode fetch none. -/
def Obligations.StepSeesOnlyFetchedBytes : Prop :=
  ∀ s s' : State, s'.d = s.d → s'.a = s.a → s'.pc = s.pc → s'.sr = s.sr → s'.ready = s.ready →
    memRead s'.maps s.pc 2 = memRead s.maps s.pc 2 →
    (∀ n, AsksOperand defaultTable s.maps s.pc n →
      memRead s'.maps (s.pc + 2) n = memRead s.maps (s.pc + 2) n) →
    (∀ t, step s = .next t →
      ∃ t', step s' = .next t' ∧ t'.d = t.d ∧ t'.a = t.a ∧ t'.pc = t.pc ∧ t'.sr = t.sr) ∧
    (∀ f, step s = .fault f → step s' = .fault f)

/-- R52, R123: an instruction the host writes at the program counter, with `BusWrite` or with a `BusWriteId` of the
region to which the program counter is routed, is the one the next step runs. An operand is written with the opcode
word where the address after the opcode word is routed to the same region. -/
def Obligations.StepRunsFreshlyWrittenBytes : Prop :=
  ∀ (s s' : State) (i : Instr) (tx : Transaction), s.wf → s.ready = true →
    (tx = .busWrite s.pc (encode i) ∨
      ∃ id m, lookup s.maps s.pc.toNat = some (id, m) ∧ tx = .busWriteId id s.pc (encode i)) →
    transactWith defaultTable s tx = (s', .done) →
    (i.operand ≠ [] → s.pc.toNat + 2 < 2 ^ 32 ∧
      (lookup s.maps (s.pc + 2).toNat).map Prod.fst = (lookup s.maps s.pc.toNat).map Prod.fst) →
    step s' = exec i s'

/-- The model's own port (log entry 6): the state with a table word placed where the next step fetches runs exactly
that instruction, and holds the registers it held. -/
def Obligations.PlacedWordIsRun : Prop :=
  ∀ (s : State) (nbits w : Nat) (i : Instr), s.wf → decodeTableWord nbits w = some i →
    step (s.withFetchWord nbits w) = exec i (s.withFetchWord nbits w) ∧
    (s.withFetchWord nbits w).d = s.d ∧ (s.withFetchWord nbits w).a = s.a ∧
    (s.withFetchWord nbits w).pc = s.pc ∧ (s.withFetchWord nbits w).sr = s.sr

end steps

section disassembly

/-- R86: the length a disassembly returns is `2 + L` of the matched descriptor, and it is what a completed step at
that address adds to the program counter; the transaction answers the text with that length (R84). -/
def Obligations.DisassembledLengthIsStepAdvance : Prop :=
  ∀ (t : Table) (s : State) (a : Word) (text : String) (n : Nat), disassemble t s.maps a = .ok (text, n) →
    (∃ ob d, memRead s.maps a 2 = .ok ob ∧ lookupDesc t (be16 ob) = some d ∧ n = 2 + d.operandBytes) ∧
    (∀ s', s.pc = a → stepWith t s = .next s' → s'.pc = a + BitVec.ofNat 32 n) ∧
    (t.wf = true → transactWith t s (.disassemble a) = (s, .text text n))

/-- R84, R85: a disassembly at the program counter raises exactly the faults that a step there raises, and the
transaction, at any address and over any well-formed table, reports what the disassembly raises. -/
def Obligations.DisassemblyRaisesLikeStep : Prop :=
  ∀ (s : State) (f : Fault),
    (s.ready = true → (disassemble defaultTable s.maps s.pc = .error f ↔ step s = .fault f)) ∧
    (∀ (t : Table) (a : Word), t.wf = true → disassemble t s.maps a = .error f →
      (transactWith t s (.disassemble a)).2 = .fault f)

/-- R85: a disassembly writes no register, no flag, no program counter and no byte; on an unknown opcode it fails
with `InvalidOpcode` at the address asked for. -/
def Obligations.DisassemblyWritesNothing : Prop :=
  ∀ (t : Table) (s s' : State) (a : Word) (r : Response), transactWith t s (.disassemble a) = (s', r) →
    (s'.d = s.d ∧ s'.a = s.a ∧ s'.pc = s.pc ∧ s'.sr = s.sr ∧ s'.maps = s.maps) ∧
    (∀ ob, t.wf = true → memRead s.maps a 2 = .ok ob → lookupDesc t (be16 ob) = none →
      r = .fault (.invalidOpcode a (be16 ob)))

/-- The names of the registers in a text (R88). -/
def dataRegisterName (r : Reg) : String := ["d0", "d1", "d2", "d3", "d4", "d5", "d6", "d7"].getD r.val ""
def addressRegisterName (r : Reg) : String := ["a0", "a1", "a2", "a3", "a4", "a5", "a6", "a7"].getD r.val ""

/-- The hexadecimal digit of weight `16 ^ k` in a value. -/
def upperHexDigit (v k : Nat) : String :=
  ["0", "1", "2", "3", "4", "5", "6", "7", "8", "9", "A", "B", "C", "D", "E", "F"].getD (v / 16 ^ k % 16) ""

/-- A value as eight upper-case hexadecimal digits, the most significant first (R87). -/
def upperHex (v : Nat) : String :=
  upperHexDigit v 7 ++ upperHexDigit v 6 ++ upperHexDigit v 5 ++ upperHexDigit v 4 ++ upperHexDigit v 3
    ++ upperHexDigit v 2 ++ upperHexDigit v 1 ++ upperHexDigit v 0

/-- The table of R87. -/
def instructionText : Instr → String
  | .moveDyDx y x    => "move.l " ++ dataRegisterName y ++ "," ++ dataRegisterName x
  | .moveAyDx y x    => "move.l " ++ addressRegisterName y ++ "," ++ dataRegisterName x
  | .moveImmDx imm x => "move.l #$" ++ upperHex imm.toNat ++ "," ++ dataRegisterName x
  | .addDyDx y x     => "add.l " ++ dataRegisterName y ++ "," ++ dataRegisterName x
  | .addAyDx y x     => "add.l " ++ addressRegisterName y ++ "," ++ dataRegisterName x
  | .addImmDx imm x  => "add.l #$" ++ upperHex imm.toNat ++ "," ++ dataRegisterName x

/-- R87: the text of every instruction of the default table, and its length, as the disassembler gives them and as the
transaction answers them. The text is the spec's own, and no claim
about the reference implementation's (log entry 15). -/
def Obligations.DisassembledTextOfEveryInstruction : Prop :=
  ∀ (maps : List Mapping) (a : Word) (i : Instr), memRead maps a 2 = .ok (bytesBE16 i.opcode) →
    (i.operand ≠ [] → memRead maps (a + 2) 4 = .ok i.operand) →
    disassemble defaultTable maps a = .ok (instructionText i, 2 + i.operand.length) ∧
    (∀ s : State, s.maps = maps → transactWith defaultTable s (.disassemble a) =
      (s, .text (instructionText i) (2 + i.operand.length)))

end disassembly

section bus

/-- R35: the lookup selects the first mapping, in attachment order, whose `[base, end]` inclusively holds the
address; where none does, a routed access raises `RegionNotFound`. -/
def Obligations.LookupIsFirstInclusiveMatch : Prop :=
  ∀ (maps : List Mapping) (addr : Nat),
    (∀ id m, lookup maps addr = some (id, m) ↔
      maps[id]? = some m ∧ m.base ≤ addr ∧ addr ≤ m.base + m.region.len ∧
      ∀ j m', j < id → maps[j]? = some m' → addr < m'.base ∨ m'.base + m'.region.len < addr) ∧
    (lookup maps addr = none ↔ ∀ m ∈ maps, addr < m.base ∨ m.base + m.region.len < addr) ∧
    (∀ (a : Word) (n : Nat) (bs : List Byte), a.toNat = addr → lookup maps addr = none →
      memRead maps a n = .error (.regionNotFound a) ∧ memWrite maps a bs = .error (.regionNotFound a))

/-- R30, R36, R38: a routed read answers bytes of the one region that claims its start address, at consecutive
offsets, or faults when that region ends before the read does, whatever other regions follow; and `BusRead` answers
what the routed read answers, with the state as it was where that is bytes (R7). -/
def Obligations.RoutedReadStaysInItsRegion : Prop :=
  ∀ (maps : List Mapping) (a : Word) (n : Nat),
    (lookup maps a.toNat = none → memRead maps a n = .error (.regionNotFound a)) ∧
    (∀ id m, lookup maps a.toNat = some (id, m) →
      (a.toNat - m.base + n ≤ m.region.len → ∃ bs, memRead maps a n = .ok bs ∧ bs.length = n ∧
        ∀ k, k < n → bs[k]? = byteAt maps id (a.toNat - m.base + k)) ∧
      (m.region.len < a.toNat - m.base + n → memRead maps a n = .error (.regionOutOfRange a n))) ∧
    (∀ t s, t.wf = true → s.maps = maps →
      (∀ bs, memRead maps a n = .ok bs → transactWith t s (.busRead a n) = (s, .bytes bs)) ∧
      (∀ f, memRead maps a n = .error f → (transactWith t s (.busRead a n)).2 = .fault f))

/-- R29, R32, R37: bytes written by a routed write read back; every other byte of that region, and every byte of
every other region, is as before; and `BusWrite` puts what is written in the place of the mappings, or reports the
fault and leaves no trace in memory (R7). -/
def Obligations.RoutedWriteReadsBack : Prop :=
  ∀ (maps : List Mapping) (a : Word) (bs : List Byte), (∀ m ∈ maps, m.wf) →
    (lookup maps a.toNat = none → memWrite maps a bs = .error (.regionNotFound a)) ∧
    (∀ id m, lookup maps a.toNat = some (id, m) →
      (a.toNat - m.base + bs.length ≤ m.region.len → ∃ maps', memWrite maps a bs = .ok maps' ∧
        memRead maps' a bs.length = .ok bs ∧
        (∀ k, k < bs.length → byteAt maps' id (a.toNat - m.base + k) = bs[k]?) ∧
        (∀ id' off, ¬ (id' = id ∧ a.toNat - m.base ≤ off ∧ off < a.toNat - m.base + bs.length) →
          byteAt maps' id' off = byteAt maps id' off)) ∧
      (m.region.len < a.toNat - m.base + bs.length →
        memWrite maps a bs = .error (.regionOutOfRange a bs.length))) ∧
    (∀ t s, t.wf = true → s.maps = maps →
      (∀ maps', memWrite maps a bs = .ok maps' →
        transactWith t s (.busWrite a bs) = ({ s with maps := maps' }, .done)) ∧
      (∀ f, memWrite maps a bs = .error f →
        ∃ s', transactWith t s (.busWrite a bs) = (s', .fault f) ∧ s'.maps = maps))

/-- R39, R40: a by-identifier access bypasses the lookup: it faults on an identifier not yet attached, on an address
below the base and on one whose access runs past the region's end, and otherwise reads or writes that region's own
bytes and no other's; and `BusReadId` and `BusWriteId` answer so (R7). -/
def Obligations.AccessByIdentifier : Prop :=
  ∀ (maps : List Mapping) (id : Nat) (a : Word) (n : Nat) (bs : List Byte), (∀ m ∈ maps, m.wf) →
    (maps.length ≤ id →
      readId maps id a n = .error (.badRegionId id) ∧ writeId maps id a bs = .error (.badRegionId id)) ∧
    (∀ m, maps[id]? = some m →
      (a.toNat < m.base ∨ m.region.len < a.toNat - m.base + n →
        readId maps id a n = .error (.regionOutOfRange a n)) ∧
      (a.toNat < m.base ∨ m.region.len < a.toNat - m.base + bs.length →
        writeId maps id a bs = .error (.regionOutOfRange a bs.length)) ∧
      (m.base ≤ a.toNat → a.toNat - m.base + n ≤ m.region.len →
        ∃ out, readId maps id a n = .ok out ∧ out.length = n ∧
          ∀ k, k < n → out[k]? = byteAt maps id (a.toNat - m.base + k)) ∧
      (m.base ≤ a.toNat → a.toNat - m.base + bs.length ≤ m.region.len →
        ∃ maps', writeId maps id a bs = .ok maps' ∧ readId maps' id a bs.length = .ok bs ∧
          ∀ id' off, ¬ (id' = id ∧ a.toNat - m.base ≤ off ∧ off < a.toNat - m.base + bs.length) →
            byteAt maps' id' off = byteAt maps id' off)) ∧
    (∀ t s, t.wf = true → s.maps = maps →
      (∀ out, readId maps id a n = .ok out → transactWith t s (.busReadId id a n) = (s, .bytes out)) ∧
      (∀ f, readId maps id a n = .error f → (transactWith t s (.busReadId id a n)).2 = .fault f) ∧
      (∀ maps', writeId maps id a bs = .ok maps' →
        transactWith t s (.busWriteId id a bs) = ({ s with maps := maps' }, .done)) ∧
      (∀ f, writeId maps id a bs = .error f →
        ∃ s', transactWith t s (.busWriteId id a bs) = (s', .fault f) ∧ s'.maps = maps))

/-- R44: a 32-bit value written big-endian reads back as itself, as its upper half from a 16-bit read at the same
address, and as its lower half from a 16-bit read two bytes on where that address is routed to the same region. -/
def Obligations.MixedWidthAccessIsBigEndian : Prop :=
  ∀ (maps maps' : List Mapping) (a : Word) (v : Word), (∀ m ∈ maps, m.wf) →
    memWrite maps a (bytesBE32 v) = .ok maps' →
    (∃ b, memRead maps' a 4 = .ok b ∧ (be32 b).toNat = v.toNat) ∧
    (∃ b, memRead maps' a 2 = .ok b ∧ (be16 b).toNat = v.toNat / 2 ^ 16) ∧
    (a.toNat + 2 < 2 ^ 32 →
      (lookup maps (a + 2).toNat).map Prod.fst = (lookup maps a.toNat).map Prod.fst →
      ∃ b, memRead maps' (a + 2) 2 = .ok b ∧ (be16 b).toNat = v.toNat % 2 ^ 16)

/-- R33, R34: an attachment appends a mapping at the base address asked for, with the region's own length and bytes,
answers its position, leaves every earlier mapping, and re-routes no address that was routed before; and whatever
transactions follow, no `CpuReset` is admitted until a `BusReset` comes (R117). That this is a bit of the state, and
that a refused `CpuReset` leaves the state as it was, are the model's reading (log entries 8 and 9). -/
def Obligations.AttachmentAppends : Prop :=
  ∀ (t : Table) (s : State) (a : Word) (g : Region), t.wf = true →
    ∃ s', transactWith t s (.busAttach a g) = (s', .attached s.maps.length) ∧
      s'.maps.length = s.maps.length + 1 ∧
      (∃ m, s'.maps[s.maps.length]? = some m ∧ m.base = a.toNat ∧ m.region.len = g.len ∧
        (∀ off, off < g.len → m.region.mem.read off = g.mem.read off)) ∧
      (∀ id, id < s.maps.length → s'.maps[id]? = s.maps[id]?) ∧
      (∀ addr r, lookup s.maps addr = some r → lookup s'.maps addr = some r) ∧
      s'.busReset = false ∧
      (∀ txs : List Transaction, (∀ p, .busReset p ∉ txs) →
        transactWith t (runWith t s' txs) .cpuReset = (runWith t s' txs, .refused .busNotReset))

/-- R31, R41: a power-on bus reset makes every byte of every region 0, a warm one makes each byte the draw P_WARM
gives it, both leave the map and the registers (R27), and after both a `CpuReset` is admitted, whatever transactions
follow, until an attachment comes (R117). That the draw is
a free value of the draw number, the region, the offset and the byte before is the model's choice (log entry 2), and
that the admission is a bit of the state its reading (log entry 8). -/
def Obligations.BusResetContents : Prop :=
  ∀ (t : Table) (s : State) (p : Bool), t.wf = true →
    ∃ s', transactWith t s (.busReset p) = (s', .done) ∧
      (∀ id off, byteAt s'.maps id off =
        (byteAt s.maps id off).map (fun old => if p then 0 else Config.warmByte s.draws id off old)) ∧
      s'.maps.map (fun m => (m.base, m.region.len)) = s.maps.map (fun m => (m.base, m.region.len)) ∧
      s'.d = s.d ∧ s'.a = s.a ∧ s'.pc = s.pc ∧ s'.sr = s.sr ∧ s'.busReset = true ∧
      (∀ txs : List Transaction, (∀ a g, .busAttach a g ∉ txs) → ∀ r,
        (transactWith t (runWith t s' txs) .cpuReset).2 ≠ .refused r)

end bus

section resetting

/-- R113, R115, R116, R117: a `CpuReset` is refused before a `BusReset`; otherwise it reads the stack pointer at 0,
then the program counter at 4; a fault of either read writes no register and leaves the CPU not ready; with both read,
`A7` and `pc` hold them, every other register holds its draw, and the CPU is ready. The form of the draws is the
model's choice (log entry 1); that the admission is a bit of the state and that a refusal leaves the state are its
reading (log entries 8 and 9). -/
def Obligations.CpuResetLoadsVector : Prop :=
  ∀ (t : Table) (s : State), t.wf = true →
    (s.busReset = false → transactWith t s .cpuReset = (s, .refused .busNotReset)) ∧
    (s.busReset = true →
      (∀ f, memRead s.maps 0 4 = .error f →
        transactWith t s .cpuReset = ({ s with ready := false }, .fault f)) ∧
      (∀ sp f, memRead s.maps 0 4 = .ok sp → memRead s.maps 4 4 = .error f →
        transactWith t s .cpuReset = ({ s with ready := false }, .fault f)) ∧
      (∀ sp npc, memRead s.maps 0 4 = .ok sp → memRead s.maps 4 4 = .ok npc →
        ∃ s', transactWith t s .cpuReset = (s', .done) ∧
          s'.readA 7 = be32 sp ∧ s'.pc = be32 npc ∧ s'.ready = true ∧ s'.maps = s.maps ∧
          (∀ r, s'.readD r = Config.initData s.draws r) ∧
          (∀ r, r ≠ 7 → s'.readA r = Config.initAddress s.draws r) ∧
          s'.sr = Config.initStatus s.draws))

/-- The model's reset state is what the boot sequence of R118 leaves on the platform of `Config.resetRegions`, but
for the registers that boot draws: the map, the reset vector's registers and both admission conditions. That platform,
and the value 0 of the drawn registers in `State.reset`, are the model's choice (log entries 3 and 5). -/
def Obligations.ResetStateIsBootedPlatform : Prop :=
  let boot := runWith defaultTable State.powerOn
    (Config.resetRegions.map (fun r => .busAttach (BitVec.ofNat 32 r.1) { len := r.2, mem := [] })
      ++ [.busReset true, .cpuReset])
  boot.maps = State.reset.maps ∧ boot.pc = State.reset.pc ∧ boot.readA 7 = State.reset.readA 7 ∧
  boot.ready = State.reset.ready ∧ boot.busReset = State.reset.busReset

end resetting

section machine

/-- R100, R101, R102: a transaction that raises leaves every register, flag and region byte as it was; a bus fault
leaves the CPU not ready, and `InvalidOpcode` leaves it as it was. That readiness is a bit of the state is the model's
reading (log entry 7). -/
def Obligations.RaisingTransactionIsPrecise : Prop :=
  ∀ (t : Table) (s s' : State) (tx : Transaction) (f : Fault), transactWith t s tx = (s', .fault f) →
    s' = { s with ready := s'.ready } ∧
    (f.isBus = true → s'.ready = false) ∧ (f.isBus = false → s'.ready = s.ready)

/-- R97, R98, R99: which transaction can raise which fault, from which cause, and what the fault records: the address
of the opcode word and its value; the address that no region claims; the address and the length of an access that the
selected region ends before, or whose by-identifier address lies below the base; the identifier not yet attached. An
operand fetch is made, and records `L`, where the row of the opcode fetched has operand bytes (R77). -/
def Obligations.FaultsComeFromTheirCauses : Prop :=
  ∀ (t : Table) (s s' : State) (tx : Transaction) (f : Fault), transactWith t s tx = (s', .fault f) →
    match f with
    | .invalidOpcode a op =>
      ((tx = .step ∧ a = s.pc) ∨ tx = .disassemble a) ∧
        ∃ ob, memRead s.maps a 2 = .ok ob ∧ op = be16 ob ∧ lookupDesc t op = none
    | .regionNotFound a =>
      (∀ m ∈ s.maps, a.toNat < m.base ∨ m.base + m.region.len < a.toNat) ∧
        ((∃ b, (tx = .step ∧ b = s.pc ∨ tx = .disassemble b) ∧
            (a = b ∨ a = b + 2 ∧ ∃ n, AsksOperand t s.maps b n)) ∨
          (tx = .cpuReset ∧ (a = 0 ∨ a = 4)) ∨ (∃ n, tx = .busRead a n) ∨ (∃ bs, tx = .busWrite a bs))
    | .regionOutOfRange a n =>
      ((∃ id m, lookup s.maps a.toNat = some (id, m) ∧ m.base + m.region.len < a.toNat + n) ∧
        ((∃ b, (tx = .step ∧ b = s.pc ∨ tx = .disassemble b) ∧
            (a = b ∧ n = 2 ∨ a = b + 2 ∧ AsksOperand t s.maps b n)) ∨
          (tx = .cpuReset ∧ n = 4 ∧ (a = 0 ∨ a = 4)) ∨ tx = .busRead a n ∨
          (∃ bs, tx = .busWrite a bs ∧ n = bs.length))) ∨
      (∃ id m, s.maps[id]? = some m ∧ (a.toNat < m.base ∨ m.base + m.region.len < a.toNat + n) ∧
        (tx = .busReadId id a n ∨ ∃ bs, tx = .busWriteId id a bs ∧ n = bs.length))
    | .badRegionId id =>
      s.maps.length ≤ id ∧ ((∃ a n, tx = .busReadId id a n) ∨ (∃ a bs, tx = .busWriteId id a bs))

/-- R102: after `InvalidOpcode` the state is as it was, so a repeated step raises the same fault again. -/
def Obligations.InvalidOpcodeRepeats : Prop :=
  ∀ (t : Table) (s s' : State) (a : Word) (op : Half),
    transactWith t s .step = (s', .fault (.invalidOpcode a op)) →
    s' = s ∧ a = s.pc ∧ transactWith t s' .step = (s', .fault (.invalidOpcode a op))

/-- R17, R22: the writers of the registers and of memory. No transaction but `CpuReset` writes an address register or
the privileged bits; none but `Step` and `CpuReset` writes a data register, the program counter or the status
register; none but the attachment, the bus reset and the two writes changes the mappings or what they hold. -/
def Obligations.RegisterAndMemoryWriters : Prop :=
  ∀ (t : Table) (s : State) (tx : Transaction),
    let s' := (transactWith t s tx).1
    (tx ≠ .cpuReset → s'.a = s.a ∧ privileged s'.sr = privileged s.sr) ∧
    (tx ≠ .cpuReset → tx ≠ .step → s'.d = s.d ∧ s'.pc = s.pc ∧ s'.sr = s.sr) ∧
    ((∀ a g, tx ≠ .busAttach a g) → (∀ p, tx ≠ .busReset p) → (∀ a bs, tx ≠ .busWrite a bs) →
      (∀ id a bs, tx ≠ .busWriteId id a bs) → s'.maps = s.maps ∧ SameBytes s.maps s'.maps)

/-- R20, R115: over any run without a `CpuReset`, whatever the table, the privileged bits of the status register and
every address register keep their values. -/
def Obligations.RunsKeepPrivilegedBits : Prop :=
  ∀ (t : Table) (s : State) (txs : List Transaction), (∀ tx ∈ txs, tx ≠ .cpuReset) →
    privileged (runWith t s txs).sr = privileged s.sr ∧ (runWith t s txs).a = s.a

/-- R74, R101: a bus fault is terminal. A transaction that reports one changes nothing but that the CPU is no longer
ready, and after it every step is refused, and changes nothing, for as long as no `CpuReset` completes. That readiness
is a bit of the state and that a refused step changes nothing are the model's reading (log entries 7 and 9). -/
def Obligations.BusFaultIsTerminal : Prop :=
  ∀ (t : Table) (s : State) (tx : Transaction) (f : Fault) (txs : List Transaction), t.wf = true →
    (transactWith t s tx).2 = .fault f → f.isBus = true →
    NoCompletedReset t (transactWith t s tx).1 txs →
    (transactWith t s tx).1 = { s with ready := false } ∧
    let s' := runWith t (transactWith t s tx).1 txs
    transactWith t s' .step = (s', .refused .cpuNotReady)

/-- R74: a safe run, in which no transaction reports a bus fault, keeps a ready CPU ready. -/
def Obligations.SafeRunStaysReady : Prop :=
  ∀ (t : Table) (s : State) (txs : List Transaction), s.ready = true → SafeRun t s txs →
    (runWith t s txs).ready = true

/-- R29, R33: every transaction, over every table, and every step keeps the invariant: bases are 32-bit addresses,
and every region's contents are in canonical form within its length. The form is the model's own (log entry 10). -/
def Obligations.TransactionsKeepInvariant : Prop :=
  (∀ (t : Table) (s : State) (tx : Transaction), s.wf → (transactWith t s tx).1.wf) ∧
  (∀ s s' : State, s.wf → step s = .next s' → s'.wf)

/-- The invariant holds before anything is attached and right after reset; the map of the state after reset is the
model's choice (log entry 3). -/
def Obligations.ResetMeetsInvariant : Prop :=
  State.powerOn.wf ∧ State.reset.wf

end machine
end

