-- ==== Sys2Proof/Laws/Memory.lean ====
section
/-! SUPPORT. What the operations on a region's contents do: a read after a write, the canonical form, and that
equal contents are equal lists (20_memory.md R29, R31, R32). -/

namespace Sys2Proof.Machine

@[simp] theorem Memory.read_nil (off : Nat) : Memory.read [] off = Memory.unlisted := rfl

theorem Memory.read_of_keys_ne (m : Memory) (off : Nat) (h : ∀ c ∈ m, c.1 ≠ off) :
    m.read off = Memory.unlisted := by
  induction m with
  | nil => rfl
  | cons c m ih =>
    obtain ⟨k, v⟩ := c
    have hk : k ≠ off := h (k, v) (by simp)
    simp only [Memory.read, if_neg hk]
    exact ih fun c hc => h c (by simp [hc])

theorem Memory.wf_nil : Memory.wf [] := ⟨List.Pairwise.nil, by simp⟩

theorem Memory.wf_cons {k : Nat} {v : Byte} {m : Memory} :
    Memory.wf ((k, v) :: m) ↔ (∀ c ∈ m, k < c.1) ∧ v ≠ Memory.unlisted ∧ Memory.wf m := by
  simp only [Memory.wf, List.map_cons, List.pairwise_cons, List.mem_map, List.mem_cons]
  constructor
  · rintro ⟨⟨h1, h2⟩, h3⟩
    exact ⟨fun c hc => h1 c.1 ⟨c, hc, rfl⟩, h3 (k, v) (.inl rfl), h2, fun c hc => h3 c (.inr hc)⟩
  · rintro ⟨h1, h2, h3, h4⟩
    refine ⟨⟨?_, h3⟩, ?_⟩
    · rintro _ ⟨c, hc, rfl⟩
      exact h1 c hc
    · rintro c (rfl | hc)
      · exact h2
      · exact h4 c hc

/-- Every offset listed after a write was listed before or is the one written. -/
theorem Memory.mem_write {m : Memory} {off : Nat} {b : Byte} {c : Host.Cell} (h : c ∈ m.write off b) :
    c ∈ m ∨ c = (off, b) := by
  induction m with
  | nil =>
    simp only [Memory.write] at h
    split at h <;> simp_all
  | cons e m ih =>
    obtain ⟨k, v⟩ := e
    simp only [Memory.write] at h
    split at h
    · split at h
      · exact .inl h
      · exact (List.mem_cons.1 h).symm
    · split at h
      · split at h
        · exact .inl (List.mem_cons_of_mem _ h)
        · rcases List.mem_cons.1 h with h | h
          · exact .inr h
          · exact .inl (List.mem_cons_of_mem _ h)
      · rcases List.mem_cons.1 h with rfl | h
        · simp
        · rcases ih h with h | h <;> simp [h]

/-- A write keeps the canonical form. -/
theorem Memory.wf_write {m : Memory} (h : m.wf) (off : Nat) (b : Byte) : (m.write off b).wf := by
  induction m with
  | nil =>
    simp only [Memory.write]
    split
    · exact Memory.wf_nil
    · next hb => exact Memory.wf_cons.2 ⟨by simp, hb, Memory.wf_nil⟩
  | cons e m ih =>
    obtain ⟨k, v⟩ := e
    obtain ⟨h1, h2, h3⟩ := Memory.wf_cons.1 h
    simp only [Memory.write]
    split
    · next hk =>
      split
      · exact h
      · next hb =>
        refine Memory.wf_cons.2 ⟨?_, hb, h⟩
        intro c hc
        rcases List.mem_cons.1 hc with rfl | hc
        · exact hk
        · exact lt_trans hk (h1 c hc)
    · next hk =>
      split
      · next he =>
        subst he
        split
        · exact h3
        · next hb => exact Memory.wf_cons.2 ⟨h1, hb, h3⟩
      · next he =>
        refine Memory.wf_cons.2 ⟨?_, h2, ih h3⟩
        intro c hc
        rcases Memory.mem_write hc with hc | rfl
        · exact h1 c hc
        · exact lt_of_le_of_ne (not_lt.1 hk) (Ne.symm he)

/-- One byte written reads back, and every other byte reads as before. -/
theorem Memory.read_write {m : Memory} (h : m.wf) (off : Nat) (b : Byte) (off' : Nat) :
    (m.write off b).read off' = if off' = off then b else m.read off' := by
  induction m with
  | nil =>
    simp only [Memory.write]
    split
    · next hb => split <;> simp_all
    · simp only [Memory.read, eq_comm]
  | cons e m ih =>
    obtain ⟨k, v⟩ := e
    obtain ⟨h1, h2, h3⟩ := Memory.wf_cons.1 h
    have unlistedBelow : ∀ o, o ≤ k → Memory.read m o = Memory.unlisted := fun o ho =>
      Memory.read_of_keys_ne m o fun c hc => (lt_of_le_of_lt ho (h1 c hc)).ne'
    simp only [Memory.write]
    split
    · next hk =>
      split
      · next hb =>
        split
        · next ho => subst ho; simp [Memory.read, hk.ne', unlistedBelow off' hk.le, hb]
        · rfl
      · simp only [Memory.read, eq_comm (a := off)]
    · next hk =>
      split
      · next he =>
        subst he
        split
        · next hb =>
          simp only [Memory.read]
          split
          · next ho => subst ho; simp [unlistedBelow off' le_rfl, hb]
          · next ho => rw [if_neg (Ne.symm ho)]
        · simp only [Memory.read, eq_comm]
          split <;> simp_all
      · next he =>
        simp only [Memory.read, ih h3]
        split
        · next hko => subst hko; rw [if_neg (Ne.symm he)]
        · rfl

/-- Two canonical contents that read alike are one list. -/
theorem Memory.ext_of_read {m m' : Memory} (h : m.wf) (h' : m'.wf) (hr : ∀ off, m.read off = m'.read off) :
    m = m' := by
  induction m generalizing m' with
  | nil =>
    cases m' with
    | nil => rfl
    | cons e m' =>
      obtain ⟨k, v⟩ := e
      have := hr k
      simp only [Memory.read, if_pos] at this
      exact absurd this.symm (Memory.wf_cons.1 h').2.1
  | cons e m ih =>
    obtain ⟨k, v⟩ := e
    obtain ⟨h1, h2, h3⟩ := Memory.wf_cons.1 h
    cases m' with
    | nil =>
      have := hr k
      simp only [Memory.read, if_pos] at this
      exact absurd this h2
    | cons e' m' =>
      obtain ⟨k', v'⟩ := e'
      obtain ⟨h1', h2', h3'⟩ := Memory.wf_cons.1 h'
      have unlisted : ∀ o, o ≤ k → Memory.read m o = Memory.unlisted := fun o ho =>
        Memory.read_of_keys_ne m o fun c hc => (lt_of_le_of_lt ho (h1 c hc)).ne'
      have unlisted' : ∀ o, o ≤ k' → Memory.read m' o = Memory.unlisted := fun o ho =>
        Memory.read_of_keys_ne m' o fun c hc => (lt_of_le_of_lt ho (h1' c hc)).ne'
      have hk : k = k' := by
        rcases lt_trichotomy k k' with hlt | heq | hgt
        · have := hr k
          simp [Memory.read, hlt.ne', unlisted' k hlt.le] at this
          exact absurd this h2
        · exact heq
        · have := hr k'
          simp [Memory.read, hgt.ne', unlisted k' hgt.le] at this
          exact absurd this.symm h2'
      subst hk
      have hv : v = v' := by
        have := hr k
        simpa [Memory.read] using this
      subst hv
      congr 1
      refine ih h3 h3' fun o => ?_
      by_cases ho : o = k
      · subst ho; rw [unlisted o le_rfl, unlisted' o le_rfl]
      · have := hr o
        simpa [Memory.read, Ne.symm ho] using this

/-! Several bytes. -/

@[simp] theorem Memory.length_readBytes (m : Memory) (off n : Nat) : (m.readBytes off n).length = n := by
  induction n generalizing off with
  | zero => rfl
  | succ n ih => simp [Memory.readBytes, ih]

theorem Memory.getElem?_readBytes (m : Memory) (off n k : Nat) :
    (m.readBytes off n)[k]? = if k < n then some (m.read (off + k)) else none := by
  induction n generalizing off k with
  | zero => simp [Memory.readBytes]
  | succ n ih =>
    cases k with
    | zero => simp [Memory.readBytes]
    | succ k =>
      have : off + 1 + k = off + (k + 1) := by omega
      simp [Memory.readBytes, ih, this]

theorem Memory.wf_writeBytes {m : Memory} (h : m.wf) (off : Nat) (bs : List Byte) :
    (m.writeBytes off bs).wf := by
  induction bs generalizing m off with
  | nil => exact h
  | cons b bs ih => exact ih (Memory.wf_write h off b) (off + 1)

/-- The bytes written read back in place, and every other byte reads as before (R29). -/
theorem Memory.read_writeBytes {m : Memory} (h : m.wf) (off : Nat) (bs : List Byte) (off' : Nat) :
    (m.writeBytes off bs).read off' =
      if off ≤ off' ∧ off' < off + bs.length then bs.getD (off' - off) 0 else m.read off' := by
  induction bs generalizing m off with
  | nil =>
    simp [Memory.writeBytes]
  | cons b bs ih =>
    rw [Memory.writeBytes, ih (Memory.wf_write h off b), Memory.read_write h]
    by_cases h1 : off' = off
    · subst h1
      have e1 : ¬ (off' + 1 ≤ off' ∧ off' < off' + 1 + bs.length) := by omega
      simp
    · by_cases h2 : off + 1 ≤ off' ∧ off' < off + 1 + bs.length
      · have h3 : off ≤ off' ∧ off' < off + (b :: bs).length := by
          simp only [List.length_cons]; omega
        have h4 : off' - off = (off' - (off + 1)) + 1 := by omega
        rw [if_pos h2, if_pos h3, h4]
        rfl
      · have h3 : ¬ (off ≤ off' ∧ off' < off + (b :: bs).length) := by
          simp only [List.length_cons]; omega
        rw [if_neg h2, if_neg h3, if_neg h1]

/-- Writing bytes lists offsets of the written range only, beside those listed before. -/
theorem Memory.mem_writeBytes {m : Memory} {off : Nat} {bs : List Byte} {c : Host.Cell}
    (h : c ∈ m.writeBytes off bs) : c ∈ m ∨ (off ≤ c.1 ∧ c.1 < off + bs.length) := by
  induction bs generalizing m off with
  | nil => exact .inl h
  | cons b bs ih =>
    rcases ih h with h | h
    · rcases Memory.mem_write h with h | rfl
      · exact .inl h
      · exact .inr ⟨le_rfl, by simp⟩
    · exact .inr (by simp only [List.length_cons]; omega)

/-- The bytes written are the bytes read (the round trip of R29). -/
theorem Memory.readBytes_writeBytes {m : Memory} (h : m.wf) (off : Nat) (bs : List Byte) :
    (m.writeBytes off bs).readBytes off bs.length = bs := by
  apply List.ext_getElem?
  intro k
  rw [Memory.getElem?_readBytes]
  split
  · next hk =>
    rw [Memory.read_writeBytes h, if_pos (by omega)]
    simp [List.getD_eq_getElem?_getD, hk]
  · next hk => simp [List.getElem?_eq_none (not_lt.1 hk)]

/-- Bytes read outside a written range are as before. -/
theorem Memory.readBytes_writeBytes_of_disjoint {m : Memory} (h : m.wf) (off : Nat) (bs : List Byte)
    (off' n : Nat) (hd : off' + n ≤ off ∨ off + bs.length ≤ off') :
    (m.writeBytes off bs).readBytes off' n = m.readBytes off' n := by
  apply List.ext_getElem?
  intro k
  rw [Memory.getElem?_readBytes, Memory.getElem?_readBytes]
  split
  · next hk => rw [Memory.read_writeBytes h, if_neg (by omega)]
  · rfl

/-! The canonical form of given contents, and the warm reset. -/

theorem Memory.wf_canonical (len : Nat) (m : Memory) : (Memory.canonical len m).wf := by
  induction m with
  | nil => exact Memory.wf_nil
  | cons e m ih =>
    simp only [Memory.canonical]
    split
    · exact Memory.wf_write ih _ _
    · exact ih

theorem Memory.mem_canonical {len : Nat} {m : Memory} {c : Host.Cell} (h : c ∈ Memory.canonical len m) :
    c.1 < len := by
  induction m with
  | nil => simp [Memory.canonical] at h
  | cons e m ih =>
    simp only [Memory.canonical] at h
    split at h
    · next hk =>
      rcases Memory.mem_write h with h | rfl
      · exact ih h
      · exact hk
    · exact ih h

/-- The canonical form holds the same bytes. -/
theorem Memory.read_canonical (len : Nat) (m : Memory) (off : Nat) (h : off < len) :
    (Memory.canonical len m).read off = m.read off := by
  induction m with
  | nil => rfl
  | cons e m ih =>
    obtain ⟨k, v⟩ := e
    simp only [Memory.canonical]
    split
    · rw [Memory.read_write (Memory.wf_canonical len m), ih]
      simp only [Memory.read, eq_comm]
    · next hk =>
      have : k ≠ off := by omega
      simp [Memory.read, this, ih]

theorem Memory.wf_warm (draw id : Nat) (old : Memory) (n : Nat) : (Memory.warm draw id old n).wf := by
  induction n with
  | zero => exact Memory.wf_nil
  | succ n ih => exact Memory.wf_write ih _ _

theorem Memory.mem_warm {draw id : Nat} {old : Memory} {n : Nat} {c : Host.Cell}
    (h : c ∈ Memory.warm draw id old n) : c.1 < n := by
  induction n with
  | zero => simp [Memory.warm] at h
  | succ n ih =>
    rcases Memory.mem_write h with h | rfl
    · exact Nat.lt_succ_of_lt (ih h)
    · exact Nat.lt_succ_self n

/-- After a warm reset every byte of the region is the draw for it (R31). -/
theorem Memory.read_warm (draw id : Nat) (old : Memory) (n off : Nat) (h : off < n) :
    (Memory.warm draw id old n).read off = Config.warmByte draw id off (old.read off) := by
  induction n with
  | zero => omega
  | succ n ih =>
    rw [Memory.warm, Memory.read_write (Memory.wf_warm draw id old n)]
    split
    · next he => subst he; rfl
    · exact ih (by omega)

/-! Regions. -/

theorem Region.wf_canonical (g : Region) : g.canonical.wf :=
  ⟨Memory.wf_canonical g.len g.mem, fun _ hc => Memory.mem_canonical hc⟩

/-- A well-formed region is attached as it is. -/
theorem Region.canonical_eq {g : Region} (h : g.wf) : g.canonical = g := by
  obtain ⟨len, mem⟩ := g
  simp only [Region.canonical, Region.mk.injEq, true_and]
  refine Memory.ext_of_read (Memory.wf_canonical len mem) h.1 fun off => ?_
  by_cases ho : off < len
  · exact Memory.read_canonical len mem off ho
  · rw [Memory.read_of_keys_ne _ off fun c hc => ?_, Memory.read_of_keys_ne _ off fun c hc => ?_]
    · have := h.2 c hc
      simp only at this
      omega
    · have := Memory.mem_canonical hc
      omega

theorem Region.wf_reset (powerOn : Bool) (draw id : Nat) (g : Region) : (g.reset powerOn draw id).wf := by
  cases powerOn
  · exact ⟨Memory.wf_warm _ _ _ _, fun _ hc => Memory.mem_warm hc⟩
  · exact ⟨Memory.wf_nil, by simp [Region.reset]⟩

@[simp] theorem Region.len_reset (powerOn : Bool) (draw id : Nat) (g : Region) :
    (g.reset powerOn draw id).len = g.len := rfl

/-- What a successful region read answers. -/
theorem Region.read_ok_iff {g : Region} {addr : Word} {off n : Nat} {bs : List Byte} :
    g.read addr off n = .ok bs ↔ off + n ≤ g.len ∧ bs = g.mem.readBytes off n := by
  unfold Region.read
  split <;> simp_all [eq_comm]

/-- What a successful region write leaves. -/
theorem Region.write_ok_iff {g g' : Region} {addr : Word} {off : Nat} {bs : List Byte} :
    g.write addr off bs = .ok g' ↔
      off + bs.length ≤ g.len ∧ g' = { g with mem := g.mem.writeBytes off bs } := by
  unfold Region.write
  split <;> simp_all [eq_comm]

theorem Region.wf_write {g g' : Region} {addr : Word} {off : Nat} {bs : List Byte} (h : g.wf)
    (hw : g.write addr off bs = .ok g') : g'.wf := by
  obtain ⟨hl, rfl⟩ := Region.write_ok_iff.1 hw
  refine ⟨Memory.wf_writeBytes h.1 off bs, fun c hc => ?_⟩
  rcases Memory.mem_writeBytes hc with hc | hc
  · exact h.2 c hc
  · simp only; omega

end Sys2Proof.Machine
end

