-- ==== Sys2Proof/Laws/Bus.lean ====
section
/-! SUPPORT. What the lookup selects and what the routed and by-identifier accesses do to the mappings
(20_memory.md R33 to R41). -/

namespace Sys2Proof.Machine

theorem Mapping.claims_iff {m : Mapping} {addr : Nat} :
    m.claims addr = true ↔ m.base ≤ addr ∧ addr ≤ m.limit := by
  simp [Mapping.claims]

/-! The lookup. -/

theorem lookupFrom_eq_some_iff {maps : List Mapping} {addr first id : Nat} {m : Mapping} :
    lookupFrom first maps addr = some (id, m) ↔
      ∃ k, id = first + k ∧ maps[k]? = some m ∧ m.claims addr = true ∧
        ∀ j < k, ∀ m', maps[j]? = some m' → m'.claims addr = false := by
  induction maps generalizing first with
  | nil => simp [lookupFrom]
  | cons e maps ih =>
    simp only [lookupFrom]
    split
    · next he =>
      constructor
      · intro h
        simp only [Option.some.injEq, Prod.mk.injEq] at h
        obtain ⟨rfl, rfl⟩ := h
        exact ⟨0, rfl, rfl, he, fun j hj => absurd hj (Nat.not_lt_zero j)⟩
      · rintro ⟨k, rfl, hk, _, hmin⟩
        cases k with
        | zero => simpa using hk
        | succ k => exact absurd (hmin 0 k.succ_pos e rfl) (by simp [he])
    · next he =>
      rw [ih]
      constructor
      · rintro ⟨k, rfl, hk, hc, hmin⟩
        refine ⟨k + 1, by omega, by simpa using hk, hc, ?_⟩
        intro j hj m' hm'
        cases j with
        | zero =>
          obtain rfl : e = m' := by simpa using hm'
          simpa using he
        | succ j => exact hmin j (by omega) m' (by simpa using hm')
      · rintro ⟨k, rfl, hk, hc, hmin⟩
        cases k with
        | zero =>
          obtain rfl : e = m := by simpa using hk
          exact absurd hc he
        | succ k =>
          refine ⟨k, by omega, by simpa using hk, hc, fun j hj m' hm' => ?_⟩
          exact hmin (j + 1) (by omega) m' (by simpa using hm')

/-- The lookup selects the first mapping that claims the address (R35). -/
theorem lookup_eq_some_iff {maps : List Mapping} {addr id : Nat} {m : Mapping} :
    lookup maps addr = some (id, m) ↔
      maps[id]? = some m ∧ m.claims addr = true ∧
        ∀ j < id, ∀ m', maps[j]? = some m' → m'.claims addr = false := by
  rw [lookup, lookupFrom_eq_some_iff]
  simp

theorem lookupFrom_eq_none_iff {maps : List Mapping} {addr first : Nat} :
    lookupFrom first maps addr = none ↔ ∀ m ∈ maps, m.claims addr = false := by
  induction maps generalizing first with
  | nil => simp [lookupFrom]
  | cons e maps ih =>
    simp only [lookupFrom]
    split <;> simp_all

/-- The lookup fails when no mapping claims the address (R35). -/
theorem lookup_eq_none_iff {maps : List Mapping} {addr : Nat} :
    lookup maps addr = none ↔ ∀ m ∈ maps, m.claims addr = false :=
  lookupFrom_eq_none_iff

theorem lookupFrom_append (first : Nat) (maps maps' : List Mapping) (addr : Nat) :
    lookupFrom first (maps ++ maps') addr =
      (lookupFrom first maps addr).or (lookupFrom (first + maps.length) maps' addr) := by
  induction maps generalizing first with
  | nil => simp [lookupFrom]
  | cons e maps ih =>
    simp only [List.cons_append, lookupFrom]
    split
    · rfl
    · rw [ih, List.length_cons, Nat.add_assoc, Nat.add_comm 1]

/-- An address that a mapping claims already is routed as before after an attachment (R34). -/
theorem lookup_attach {maps : List Mapping} {addr : Nat} {a : Word} {g : Region} {r : Nat × Mapping}
    (h : lookup maps addr = some r) : lookup (attach maps a g) addr = some r := by
  unfold lookup at h
  rw [lookup, attach, lookupFrom_append, h]
  rfl

/-- The lookup looks at bases and lengths only: a region of the same length in the place of another is found where
that one was. -/
theorem lookupFrom_set {maps : List Mapping} {id first addr : Nat} {m : Mapping} {g : Region}
    (hm : maps[id]? = some m) (hg : g.len = m.region.len) :
    lookupFrom first (setRegion maps id m g) addr =
      (lookupFrom first maps addr).map fun r =>
        if r.1 = first + id then (r.1, { m with region := g }) else r := by
  induction maps generalizing id first with
  | nil => simp at hm
  | cons e maps ih =>
    cases id with
    | zero =>
      obtain rfl : e = m := by simpa using hm
      have hc : Mapping.claims { e with region := g } addr = e.claims addr := by
        rw [Bool.eq_iff_iff, Mapping.claims_iff, Mapping.claims_iff]
        simp only [Mapping.limit, hg]
      simp only [setRegion, List.set_cons_zero, lookupFrom, hc]
      split
      · simp
      · cases hl : lookupFrom (first + 1) maps addr with
        | none => rfl
        | some r =>
          obtain ⟨i, m'⟩ := r
          obtain ⟨k, hk, _⟩ := lookupFrom_eq_some_iff.1 hl
          have : i ≠ first + 0 := by omega
          simp only [Option.map_some, if_neg this]
    | succ id =>
      have hm' : maps[id]? = some m := by simpa using hm
      have ih' := ih (first := first + 1) hm'
      simp only [setRegion] at ih'
      have he : first + 1 + id = first + (id + 1) := by omega
      simp only [setRegion, List.set_cons_succ, lookupFrom]
      split
      · have : first ≠ first + (id + 1) := by omega
        simp
      · rw [ih', he]

theorem lookup_setRegion {maps : List Mapping} {id addr : Nat} {m : Mapping} {g : Region}
    (hm : maps[id]? = some m) (hg : g.len = m.region.len) :
    lookup (setRegion maps id m g) addr =
      (lookup maps addr).map fun r => if r.1 = id then (r.1, { m with region := g }) else r := by
  simpa [lookup] using lookupFrom_set (first := 0) (addr := addr) hm hg

theorem getElem?_setRegion {maps : List Mapping} {id : Nat} {m : Mapping} {g : Region}
    (hm : maps[id]? = some m) (id' : Nat) :
    (setRegion maps id m g)[id']? = if id' = id then some { m with region := g } else maps[id']? := by
  have hlt : id < maps.length := (List.getElem?_eq_some_iff.1 hm).1
  rw [setRegion, List.getElem?_set]
  by_cases h : id = id'
  · subst h; simp [hlt]
  · rw [if_neg h, if_neg (Ne.symm h)]

/-! The accesses. -/

/-- What a successful routed read answers (R36). -/
theorem memRead_eq_ok_iff {maps : List Mapping} {addr : Word} {n : Nat} {bs : List Byte} :
    memRead maps addr n = .ok bs ↔
      ∃ id m, lookup maps addr.toNat = some (id, m) ∧
        addr.toNat - m.base + n ≤ m.region.len ∧
        bs = m.region.mem.readBytes (addr.toNat - m.base) n := by
  unfold memRead
  split
  · next h => simp [h]
  · next id m h => simp [h, Region.read_ok_iff]

/-- What a routed read raises (R30, R36, R99). -/
theorem memRead_eq_error_iff {maps : List Mapping} {addr : Word} {n : Nat} {f : Fault} :
    memRead maps addr n = .error f ↔
      (lookup maps addr.toNat = none ∧ f = .regionNotFound addr) ∨
      (∃ id m, lookup maps addr.toNat = some (id, m) ∧
        m.region.len < addr.toNat - m.base + n ∧ f = .regionOutOfRange addr n) := by
  unfold memRead Region.read
  split
  · next h => simp [h, eq_comm]
  · next id m h =>
    split
    · next hl => simp [h]; omega
    · next hl => simp [h, not_le.1 hl, eq_comm]

theorem length_of_memRead {maps : List Mapping} {addr : Word} {n : Nat} {bs : List Byte}
    (h : memRead maps addr n = .ok bs) : bs.length = n := by
  obtain ⟨_, _, _, _, rfl⟩ := memRead_eq_ok_iff.1 h
  simp

/-- What a successful routed write leaves (R37). -/
theorem memWrite_eq_ok_iff {maps maps' : List Mapping} {addr : Word} {bs : List Byte} :
    memWrite maps addr bs = .ok maps' ↔
      ∃ id m, lookup maps addr.toNat = some (id, m) ∧
        addr.toNat - m.base + bs.length ≤ m.region.len ∧
        maps' = setRegion maps id m
          { m.region with mem := m.region.mem.writeBytes (addr.toNat - m.base) bs } := by
  unfold memWrite
  split
  · next h => simp [h]
  · next id m h =>
    constructor
    · intro hw
      split at hw
      · cases hw
      · next g hg =>
        obtain ⟨hl, rfl⟩ := Region.write_ok_iff.1 hg
        cases hw
        exact ⟨id, m, h, hl, rfl⟩
    · rintro ⟨id', m', h', hl, rfl⟩
      obtain ⟨rfl, rfl⟩ : id = id' ∧ m = m' := by simpa [h] using h'
      rw [Region.write_ok_iff.2 ⟨hl, rfl⟩]

/-- What a successful by-identifier write leaves (R40). -/
theorem writeId_eq_ok_iff {maps maps' : List Mapping} {id : Nat} {addr : Word} {bs : List Byte} :
    writeId maps id addr bs = .ok maps' ↔
      ∃ m, maps[id]? = some m ∧ m.base ≤ addr.toNat ∧
        addr.toNat - m.base + bs.length ≤ m.region.len ∧
        maps' = setRegion maps id m
          { m.region with mem := m.region.mem.writeBytes (addr.toNat - m.base) bs } := by
  unfold writeId
  split
  · next h => simp [h]
  · next m h =>
    split
    · next hb => simp [h]; omega
    · next hb =>
      constructor
      · intro hw
        split at hw
        · cases hw
        · next g hg =>
          obtain ⟨hl, rfl⟩ := Region.write_ok_iff.1 hg
          cases hw
          exact ⟨m, h, not_lt.1 hb, hl, rfl⟩
      · rintro ⟨m', h', _, hl, rfl⟩
        obtain rfl : m = m' := by simpa [h] using h'
        rw [Region.write_ok_iff.2 ⟨hl, rfl⟩]

/-- What a successful by-identifier read answers (R39). -/
theorem readId_eq_ok_iff {maps : List Mapping} {id : Nat} {addr : Word} {n : Nat} {bs : List Byte} :
    readId maps id addr n = .ok bs ↔
      ∃ m, maps[id]? = some m ∧ m.base ≤ addr.toNat ∧
        addr.toNat - m.base + n ≤ m.region.len ∧
        bs = m.region.mem.readBytes (addr.toNat - m.base) n := by
  unfold readId
  split
  · next h => simp [h]
  · next m h =>
    split
    · next hb => simp [h]; omega
    · next hb => simp [h, Region.read_ok_iff, not_lt.1 hb]

/-- What a routed write raises (R30, R37, R99). -/
theorem memWrite_eq_error_iff {maps : List Mapping} {addr : Word} {bs : List Byte} {f : Fault} :
    memWrite maps addr bs = .error f ↔
      (lookup maps addr.toNat = none ∧ f = .regionNotFound addr) ∨
      (∃ id m, lookup maps addr.toNat = some (id, m) ∧
        m.region.len < addr.toNat - m.base + bs.length ∧ f = .regionOutOfRange addr bs.length) := by
  unfold memWrite Region.write
  split
  · next h => simp [h, eq_comm]
  · next id m h =>
    by_cases hl : addr.toNat - m.base + bs.length ≤ m.region.len
    · simp [h, hl]
    · simp [h, hl, not_le.1 hl, eq_comm]

/-- What a by-identifier read raises (R30, R39). -/
theorem readId_eq_error_iff {maps : List Mapping} {id : Nat} {addr : Word} {n : Nat} {f : Fault} :
    readId maps id addr n = .error f ↔
      (maps.length ≤ id ∧ f = .badRegionId id) ∨
      (∃ m, maps[id]? = some m ∧ (addr.toNat < m.base ∨ m.base + m.region.len < addr.toNat + n) ∧
        f = .regionOutOfRange addr n) := by
  unfold readId Region.read
  split
  · next h => simp [List.getElem?_eq_none_iff.1 h, eq_comm]
  · next m h =>
    have hid : ¬ maps.length ≤ id := fun hn => by rw [List.getElem?_eq_none hn] at h; cases h
    split
    · next hb => simp [h, hid, hb, eq_comm]
    · next hb =>
      split
      · next hl => simp [h, hid]; omega
      · next hl =>
        have : addr.toNat < m.base ∨ m.base + m.region.len < addr.toNat + n := by omega
        simp [h, hid, this, eq_comm]

/-- What a by-identifier write raises (R30, R40). -/
theorem writeId_eq_error_iff {maps : List Mapping} {id : Nat} {addr : Word} {bs : List Byte} {f : Fault} :
    writeId maps id addr bs = .error f ↔
      (maps.length ≤ id ∧ f = .badRegionId id) ∨
      (∃ m, maps[id]? = some m ∧ (addr.toNat < m.base ∨ m.base + m.region.len < addr.toNat + bs.length) ∧
        f = .regionOutOfRange addr bs.length) := by
  unfold writeId Region.write
  split
  · next h => simp [List.getElem?_eq_none_iff.1 h, eq_comm]
  · next m h =>
    have hid : ¬ maps.length ≤ id := fun hn => by rw [List.getElem?_eq_none hn] at h; cases h
    split
    · next hb => simp [h, hid, hb, eq_comm]
    · next hb =>
      by_cases hl : addr.toNat - m.base + bs.length ≤ m.region.len
      · simp [h, hid, hl]; omega
      · have : addr.toNat < m.base ∨ m.base + m.region.len < addr.toNat + bs.length := by omega
        simp [h, hid, hl, this, eq_comm]

/-- A by-identifier write to the region that claims its address is the routed write (R37, R40). -/
theorem writeId_eq_memWrite {maps : List Mapping} {id : Nat} {m : Mapping} {addr : Word} {bs : List Byte}
    (h : lookup maps addr.toNat = some (id, m)) : writeId maps id addr bs = memWrite maps addr bs := by
  obtain ⟨hm, hc, _⟩ := lookup_eq_some_iff.1 h
  simp [writeId, memWrite, h, hm, not_lt.2 (Mapping.claims_iff.1 hc).1]

end Sys2Proof.Machine
end

