-- ==== Sys2Proof/Laws/Decode.lean ====
section
/-! SUPPORT. Byte order, and the default table's rows against the opcode words of its instructions
(30_encoding.md R54, R63, R66 to R69). -/

namespace Sys2Proof

theorem be16_bytesBE16 (v : Half) : be16 (bytesBE16 v) = v := by
  apply BitVec.eq_of_getLsbD_eq
  intro k hk
  simp only [be16, bytesBE16, List.getD_cons_zero, List.getD_cons_succ, BitVec.getLsbD_append,
    BitVec.getLsbD_extractLsb']
  by_cases h : k < 8
  · simp [h]
  · have : 8 + (k - 8) = k := by omega
    have h8 : k - 8 < 8 := by omega
    simp [h, this, h8]

theorem bytesBE16_be16 (b0 b1 : Byte) : bytesBE16 (be16 [b0, b1]) = [b0, b1] := by
  simp only [be16, bytesBE16, List.getD_cons_zero, List.getD_cons_succ, List.cons.injEq, and_true]
  constructor <;> (apply BitVec.eq_of_getLsbD_eq; intro k hk)
  · simp only [BitVec.getLsbD_append, BitVec.getLsbD_extractLsb']
    simp [hk]
  · simp only [BitVec.getLsbD_append, BitVec.getLsbD_extractLsb']
    simp [hk]

theorem be32_bytesBE32 (v : Word) : be32 (bytesBE32 v) = v := by
  apply BitVec.eq_of_getLsbD_eq
  intro k hk
  simp only [be32, bytesBE32, List.getD_cons_zero, List.getD_cons_succ, BitVec.getLsbD_append,
    BitVec.getLsbD_extractLsb']
  have : k < 8 ∨ (8 ≤ k ∧ k < 16) ∨ (16 ≤ k ∧ k < 24) ∨ (24 ≤ k ∧ k < 32) := by omega
  rcases this with h | h | h | h
  · simp [h]
  · have h1 : ¬ k < 8 := by omega
    have h2 : k - 8 < 8 := by omega
    have h3 : 8 + (k - 8) = k := by omega
    simp [h1, h2, h3]
  · have h1 : ¬ k < 8 := by omega
    have h2 : ¬ k - 8 < 8 := by omega
    have h3 : k - 8 - 8 < 8 := by omega
    have h4 : 16 + (k - 8 - 8) = k := by omega
    simp [h1, h2, h3, h4]
  · have h1 : ¬ k < 8 := by omega
    have h2 : ¬ k - 8 < 8 := by omega
    have h3 : ¬ k - 8 - 8 < 8 := by omega
    have h4 : k - 8 - 8 - 8 < 8 := by omega
    have h5 : 24 + (k - 8 - 8 - 8) = k := by omega
    simp [h1, h2, h3, h4, h5]

theorem bytesBE32_be32 (b0 b1 b2 b3 : Byte) : bytesBE32 (be32 [b0, b1, b2, b3]) = [b0, b1, b2, b3] := by
  simp only [be32, bytesBE32, List.getD_cons_zero, List.getD_cons_succ, List.cons.injEq, and_true]
  refine ⟨?_, ?_, ?_, ?_⟩ <;> (apply BitVec.eq_of_getLsbD_eq; intro k hk)
  · simp only [BitVec.getLsbD_append, BitVec.getLsbD_extractLsb']
    have h1 : ¬ 24 + k < 8 := by omega
    have h2 : ¬ 24 + k - 8 < 8 := by omega
    have h3 : ¬ 24 + k - 8 - 8 < 8 := by omega
    have h4 : 24 + k - 8 - 8 - 8 = k := by omega
    simp [h1, h2, h3, h4, hk]
  · simp only [BitVec.getLsbD_append, BitVec.getLsbD_extractLsb']
    have h1 : ¬ 16 + k < 8 := by omega
    have h2 : ¬ 16 + k - 8 < 8 := by omega
    have h3 : 16 + k - 8 - 8 = k := by omega
    simp [h1, h2, h3, hk]
  · simp only [BitVec.getLsbD_append, BitVec.getLsbD_extractLsb']
    have h1 : ¬ 8 + k < 8 := by omega
    have h2 : 8 + k - 8 = k := by omega
    simp [h1, h2, hk]
  · simp only [BitVec.getLsbD_append, BitVec.getLsbD_extractLsb']
    simp [hk]

@[simp] theorem length_bytesBE16 (v : Half) : (bytesBE16 v).length = 2 := rfl
@[simp] theorem length_bytesBE32 (v : Word) : (bytesBE32 v).length = 4 := rfl

@[simp] theorem regField_regOf (f : BitVec 3) : regField (regOf f) = f := rfl
@[simp] theorem regOf_regField (r : Reg) : regOf (regField r) = r := rfl

/-- The number of operand bytes of an instruction: `L` of its row (R67). -/
theorem Instr.length_operand (i : Instr) : i.operand.length = 0 ∨ i.operand.length = 4 := by
  cases i <;> simp [Instr.operand]

/-! The rows of the default table. -/

/-- An opcode word is its five fields (R68, R69). -/
theorem opcode_fields (op : Half) :
    op = op.extractLsb' 12 4 ++ field3 op 11 ++ field3 op 8 ++ field3 op 5 ++ field3 op 2 := by
  apply BitVec.eq_of_getLsbD_eq
  intro k hk
  simp only [field3, BitVec.getLsbD_append, BitVec.getLsbD_extractLsb']
  have : k < 3 ∨ (3 ≤ k ∧ k < 6) ∨ (6 ≤ k ∧ k < 9) ∨ (9 ≤ k ∧ k < 12) ∨ (12 ≤ k ∧ k < 16) := by omega
  rcases this with h | h | h | h | h
  · simp [h]
  · have h1 : ¬ k < 3 := by omega
    have h2 : k - 3 < 3 := by omega
    have h3 : 3 + (k - 3) = k := by omega
    simp [h1, h2, h3]
  · have h1 : ¬ k < 3 := by omega
    have h2 : ¬ k - 3 < 3 := by omega
    have h3 : k - 3 - 3 < 3 := by omega
    have h4 : 6 + (k - 3 - 3) = k := by omega
    simp [h1, h2, h3, h4]
  · have h1 : ¬ k < 3 := by omega
    have h2 : ¬ k - 3 < 3 := by omega
    have h3 : ¬ k - 3 - 3 < 3 := by omega
    have h4 : k - 3 - 3 - 3 < 3 := by omega
    have h5 : 9 + (k - 3 - 3 - 3) = k := by omega
    simp [h1, h2, h3, h4, h5]
  · have h1 : ¬ k < 3 := by omega
    have h2 : ¬ k - 3 < 3 := by omega
    have h3 : ¬ k - 3 - 3 < 3 := by omega
    have h4 : ¬ k - 3 - 3 - 3 < 3 := by omega
    have h5 : k - 3 - 3 - 3 - 3 < 4 := by omega
    have h6 : 12 + (k - 3 - 3 - 3 - 3) = k := by omega
    simp [h1, h2, h3, h4, h5, h6]

/-- A field that a row's mask fixes is the pattern's. -/
theorem field_of_accepts {op mask pattern : Half} (h : op &&& mask = pattern) (lo w : Nat)
    (hm : mask.extractLsb' lo w = BitVec.allOnes w) :
    op.extractLsb' lo w = pattern.extractLsb' lo w := by
  rw [← h, BitVec.extractLsb'_and, hm, BitVec.and_allOnes]

/-- Every opcode the default table matches is the opcode word of the instruction its descriptor stands for, with
the fetched bytes as its operand bytes (R65 to R69). -/
theorem opcode_of_lookup {op : Half} {d : Descriptor} (h : lookupDesc defaultTable op = some d)
    (opnd : List Byte) (hl : opnd.length = d.operandBytes) :
    ∃ i, Instr.ofDescriptor d op opnd = some i ∧ i.opcode = op ∧ i.operand = opnd := by
  simp only [lookupDesc, Option.map_eq_some_iff] at h
  obtain ⟨r, hr, rfl⟩ := h
  have hm := List.mem_of_find?_eq_some hr
  have ha := List.find?_some hr
  simp only [Row.accepts, beq_iff_eq] at ha
  simp only [defaultTable, List.mem_cons, List.not_mem_nil, or_false] at hm
  have registerRow {f : BitVec 4} {o m : BitVec 3} (h1 : op.extractLsb' 12 4 = f)
      (h2 : field3 op 8 = o) (h3 : field3 op 5 = m) :
      f ++ field3 op 11 ++ o ++ m ++ field3 op 2 = op := by
    have := opcode_fields op
    rw [h1, h2, h3] at this
    exact this.symm
  have immediateBytes (hl : opnd.length = 4) : bytesBE32 (be32 opnd) = opnd := by
    match opnd, hl with
    | [b0, b1, b2, b3], _ => exact bytesBE32_be32 b0 b1 b2 b3
  rcases hm with rfl | rfl | rfl | rfl | rfl | rfl
  all_goals
    have h1 := field_of_accepts ha 12 4 (by decide)
    have h2 : field3 op 8 = _ := field_of_accepts ha 6 3 (by decide)
    have h3 : field3 op 5 = _ := field_of_accepts ha 3 3 (by decide)
  · refine ⟨.moveDyDx (regOf (field3 op 2)) (regOf (field3 op 11)), ?_, registerRow h1 h2 h3, ?_⟩
    · simp [Instr.ofDescriptor, defaultDescriptor, SrcKind.window, decodeWindow, decodeMR, h3, classify,
        Instr.ofOperands, DstKind.reg]
    · exact (List.eq_nil_of_length_eq_zero hl).symm
  · refine ⟨.moveAyDx (regOf (field3 op 2)) (regOf (field3 op 11)), ?_, registerRow h1 h2 h3, ?_⟩
    · simp [Instr.ofDescriptor, defaultDescriptor, SrcKind.window, decodeWindow, decodeMR, h3, classify,
        Instr.ofOperands, DstKind.reg]
    · exact (List.eq_nil_of_length_eq_zero hl).symm
  · have h4 : field3 op 2 = _ := field_of_accepts ha 0 3 (by decide)
    refine ⟨.moveImmDx (be32 opnd) (regOf (field3 op 11)), ?_, ?_, immediateBytes hl⟩
    · simp [Instr.ofDescriptor, defaultDescriptor, SrcKind.window, decodeWindow, decodeMR, h3, h4, classify,
        classifyMode7, Instr.ofOperands, DstKind.reg]
    · have := registerRow h1 h2 h3
      rw [h4] at this
      exact this
  · refine ⟨.addDyDx (regOf (field3 op 2)) (regOf (field3 op 11)), ?_, registerRow h1 h2 h3, ?_⟩
    · simp [Instr.ofDescriptor, defaultDescriptor, SrcKind.window, decodeWindow, decodeMR, h3, classify,
        Instr.ofOperands, DstKind.reg]
    · exact (List.eq_nil_of_length_eq_zero hl).symm
  · refine ⟨.addAyDx (regOf (field3 op 2)) (regOf (field3 op 11)), ?_, registerRow h1 h2 h3, ?_⟩
    · simp [Instr.ofDescriptor, defaultDescriptor, SrcKind.window, decodeWindow, decodeMR, h3, classify,
        Instr.ofOperands, DstKind.reg]
    · exact (List.eq_nil_of_length_eq_zero hl).symm
  · have h4 : field3 op 2 = _ := field_of_accepts ha 0 3 (by decide)
    refine ⟨.addImmDx (be32 opnd) (regOf (field3 op 11)), ?_, ?_, immediateBytes hl⟩
    · simp [Instr.ofDescriptor, defaultDescriptor, SrcKind.window, decodeWindow, decodeMR, h3, h4, classify,
        classifyMode7, Instr.ofOperands, DstKind.reg]
    · have := registerRow h1 h2 h3
      rw [h4] at this
      exact this

/-- The source window of a MOVE opcode word (R68). -/
theorem decodeMR_moveOpcode :
    ∀ (x : Reg) (mode reg : BitVec 3), decodeMR (moveOpcode x mode reg) 5 = (mode, reg) := by decide

/-- The source window of an ADD opcode word (R69). -/
theorem decodeMR_addOpcode :
    ∀ (x : Reg) (mode reg : BitVec 3), decodeMR (addOpcode x mode reg) 5 = (mode, reg) := by decide

/-- The destination field of a MOVE opcode word (R68). -/
theorem field3_moveOpcode :
    ∀ (x : Reg) (mode reg : BitVec 3), field3 (moveOpcode x mode reg) 11 = regField x := by decide

/-- The destination field of an ADD opcode word (R69). -/
theorem field3_addOpcode :
    ∀ (x : Reg) (mode reg : BitVec 3), field3 (addOpcode x mode reg) 11 = regField x := by decide

/-- The register rows match every opcode word of their formats (R67). -/
theorem lookup_register_opcode : ∀ y x : Reg,
    lookupDesc defaultTable (moveOpcode x 0b000 (regField y)) =
      some (defaultDescriptor 0 .move "move.l" .operand) ∧
    lookupDesc defaultTable (moveOpcode x 0b001 (regField y)) =
      some (defaultDescriptor 0 .move "move.l" .operand) ∧
    lookupDesc defaultTable (addOpcode x 0b000 (regField y)) =
      some (defaultDescriptor 0 .add "add.l" .operand) ∧
    lookupDesc defaultTable (addOpcode x 0b001 (regField y)) =
      some (defaultDescriptor 0 .add "add.l" .operand) := by decide

/-- The immediate rows match every opcode word of their formats (R67). -/
theorem lookup_immediate_opcode : ∀ x : Reg,
    lookupDesc defaultTable (moveOpcode x 0b111 0b100) =
      some (defaultDescriptor 4 .move "move.l" .immediate) ∧
    lookupDesc defaultTable (addOpcode x 0b111 0b100) =
      some (defaultDescriptor 4 .add "add.l" .immediate) := by decide

/-- The default table matches the opcode word of every instruction, with a descriptor that stands for it. -/
theorem lookup_opcode (i : Instr) :
    ∃ d, lookupDesc defaultTable i.opcode = some d ∧ d.operandBytes = i.operand.length ∧
      Instr.ofDescriptor d i.opcode i.operand = some i := by
  cases i with
  | moveDyDx y x =>
    refine ⟨_, (lookup_register_opcode y x).1, rfl, ?_⟩
    simp [Instr.ofDescriptor, defaultDescriptor, SrcKind.window, decodeWindow, Instr.opcode,
      decodeMR_moveOpcode, field3_moveOpcode, classify, Instr.ofOperands, DstKind.reg]
  | moveAyDx y x =>
    refine ⟨_, (lookup_register_opcode y x).2.1, rfl, ?_⟩
    simp [Instr.ofDescriptor, defaultDescriptor, SrcKind.window, decodeWindow, Instr.opcode,
      decodeMR_moveOpcode, field3_moveOpcode, classify, Instr.ofOperands, DstKind.reg]
  | moveImmDx imm x =>
    refine ⟨_, (lookup_immediate_opcode x).1, rfl, ?_⟩
    simp [Instr.ofDescriptor, defaultDescriptor, SrcKind.window, decodeWindow, Instr.opcode,
      decodeMR_moveOpcode, field3_moveOpcode, classify, classifyMode7, Instr.ofOperands, DstKind.reg,
      Instr.operand, be32_bytesBE32]
  | addDyDx y x =>
    refine ⟨_, (lookup_register_opcode y x).2.2.1, rfl, ?_⟩
    simp [Instr.ofDescriptor, defaultDescriptor, SrcKind.window, decodeWindow, Instr.opcode,
      decodeMR_addOpcode, field3_addOpcode, classify, Instr.ofOperands, DstKind.reg]
  | addAyDx y x =>
    refine ⟨_, (lookup_register_opcode y x).2.2.2, rfl, ?_⟩
    simp [Instr.ofDescriptor, defaultDescriptor, SrcKind.window, decodeWindow, Instr.opcode,
      decodeMR_addOpcode, field3_addOpcode, classify, Instr.ofOperands, DstKind.reg]
  | addImmDx imm x =>
    refine ⟨_, (lookup_immediate_opcode x).2, rfl, ?_⟩
    simp [Instr.ofDescriptor, defaultDescriptor, SrcKind.window, decodeWindow, Instr.opcode,
      decodeMR_addOpcode, field3_addOpcode, classify, classifyMode7, Instr.ofOperands, DstKind.reg,
      Instr.operand, be32_bytesBE32]

end Sys2Proof
end

