-- ==== Sys2Proof/Laws/Flags.lean ====
section
/-! SUPPORT. What the flag operations do to each condition code and to the privileged bits (10_state.md R19 to
R21). -/

namespace Sys2Proof.Machine

theorem Flag.pos_inj {f f' : Flag} (h : f.pos = f'.pos) : f = f' := by
  cases f <;> cases f' <;> simp_all [Flag.pos]

theorem getLsbD_setFlag (sr : Half) (f : Flag) (b : Bool) (k : Nat) :
    (setFlag sr f b).getLsbD k = if k = f.pos then b else sr.getLsbD k := by
  have hf : f.pos < 16 := by cases f <;> decide
  unfold setFlag
  by_cases hk : k < 16
  · by_cases he : k = f.pos
    · subst he
      cases b <;> simp [hk]
    · cases b <;> simp [hk, he]
  · have he : k ≠ f.pos := by omega
    simp [he, BitVec.getLsbD_of_ge _ _ (not_lt.1 hk)]

/-- A condition code set reads back; every other one reads as before. -/
@[simp] theorem getFlag_setFlag (sr : Half) (f f' : Flag) (b : Bool) :
    getFlag (setFlag sr f b) f' = if f' = f then b else getFlag sr f' := by
  unfold getFlag
  rw [getLsbD_setFlag]
  by_cases h : f' = f
  · subst h; simp
  · rw [if_neg h, if_neg fun e => h (Flag.pos_inj e)]

/-- Setting a condition code leaves the privileged bits (R20). -/
@[simp] theorem privileged_setFlag (sr : Half) (f : Flag) (b : Bool) :
    privileged (setFlag sr f b) = privileged sr := by
  apply BitVec.eq_of_getLsbD_eq
  intro k hk
  have : 5 + k ≠ f.pos := by cases f <;> simp [Flag.pos] <;> omega
  simp [privileged, getLsbD_setFlag, this]

@[simp] theorem privileged_moveFlags (r : Word) (sr : Half) :
    privileged (moveFlags r sr) = privileged sr := by
  simp [moveFlags, setNZ]

@[simp] theorem privileged_addFlags (src dst r : Word) (sr : Half) :
    privileged (addFlags src dst r sr) = privileged sr := by
  simp [addFlags, setNZ]

/-- Each condition code after a move (R21, R89). -/
theorem getFlag_moveFlags (r : Word) (sr : Half) (f : Flag) :
    getFlag (moveFlags r sr) f =
      match f with
      | .x => getFlag sr .x
      | .n => r.msb
      | .z => r == 0
      | .v => false
      | .c => false := by
  cases f <;> simp [moveFlags, setNZ]

/-- Each condition code after an add (R21, R93). -/
theorem getFlag_addFlags (src dst r : Word) (sr : Half) (f : Flag) :
    getFlag (addFlags src dst r sr) f =
      match f with
      | .x => addCarry src dst r
      | .n => r.msb
      | .z => r == 0
      | .v => addOverflow src dst r
      | .c => addCarry src dst r := by
  cases f <;> simp [addFlags, setNZ]

/-- A status register is its condition codes and its privileged bits. -/
theorem status_ext {a b : Half} (hf : ∀ f, getFlag a f = getFlag b f)
    (hp : privileged a = privileged b) : a = b := by
  apply BitVec.eq_of_getLsbD_eq
  intro k hk
  by_cases h5 : 5 ≤ k
  · have := congrArg (fun v : BitVec 11 => v.getLsbD (k - 5)) hp
    have h11 : k - 5 < 11 := by omega
    have hs : 5 + (k - 5) = k := by omega
    simpa [privileged, h11, hs] using this
  · have h : k = 0 ∨ k = 1 ∨ k = 2 ∨ k = 3 ∨ k = 4 := by omega
    rcases h with rfl | rfl | rfl | rfl | rfl
    · exact hf .c
    · exact hf .v
    · exact hf .z
    · exact hf .n
    · exact hf .x

end Sys2Proof.Machine
end

