-- ==== Sys2Proof/Laws/State.lean ====
section
/-! SUPPORT. One lemma per field per update of the state, each true by unfolding the update once. -/

namespace Sys2Proof.Machine

section registers

variable (s : State) (r : Reg) (v : Word) (h : Half) (len : Nat)

@[simp] theorem State.writeD_a : (s.writeD r v).a = s.a := rfl
@[simp] theorem State.writeD_pc : (s.writeD r v).pc = s.pc := rfl
@[simp] theorem State.writeD_sr : (s.writeD r v).sr = s.sr := rfl
@[simp] theorem State.writeD_maps : (s.writeD r v).maps = s.maps := rfl
@[simp] theorem State.writeD_ready : (s.writeD r v).ready = s.ready := rfl
@[simp] theorem State.writeD_busReset : (s.writeD r v).busReset = s.busReset := rfl
@[simp] theorem State.writeD_draws : (s.writeD r v).draws = s.draws := rfl

@[simp] theorem State.setSr_d : (s.setSr h).d = s.d := rfl
@[simp] theorem State.setSr_a : (s.setSr h).a = s.a := rfl
@[simp] theorem State.setSr_pc : (s.setSr h).pc = s.pc := rfl
@[simp] theorem State.setSr_sr : (s.setSr h).sr = h := rfl
@[simp] theorem State.setSr_maps : (s.setSr h).maps = s.maps := rfl
@[simp] theorem State.setSr_ready : (s.setSr h).ready = s.ready := rfl
@[simp] theorem State.setSr_busReset : (s.setSr h).busReset = s.busReset := rfl
@[simp] theorem State.setSr_draws : (s.setSr h).draws = s.draws := rfl

@[simp] theorem State.advance_d : (s.advance len).d = s.d := rfl
@[simp] theorem State.advance_a : (s.advance len).a = s.a := rfl
@[simp] theorem State.advance_pc : (s.advance len).pc = s.pc + BitVec.ofNat 32 len := rfl
@[simp] theorem State.advance_sr : (s.advance len).sr = s.sr := rfl
@[simp] theorem State.advance_maps : (s.advance len).maps = s.maps := rfl
@[simp] theorem State.advance_ready : (s.advance len).ready = s.ready := rfl
@[simp] theorem State.advance_busReset : (s.advance len).busReset = s.busReset := rfl
@[simp] theorem State.advance_draws : (s.advance len).draws = s.draws := rfl

/-- A data register written reads back; every other one reads as before (R80). -/
@[simp] theorem State.readD_writeD (r' : Reg) :
    (s.writeD r v).readD r' = if r' = r then v else s.readD r' := by
  simp [State.readD, State.writeD, Vector.getElem_set, Fin.ext_iff, eq_comm]

@[simp] theorem State.readA_writeD (r' : Reg) : (s.writeD r v).readA r' = s.readA r' := rfl
@[simp] theorem State.readD_setSr (r' : Reg) : (s.setSr h).readD r' = s.readD r' := rfl
@[simp] theorem State.readA_setSr (r' : Reg) : (s.setSr h).readA r' = s.readA r' := rfl
@[simp] theorem State.readD_advance (r' : Reg) : (s.advance len).readD r' = s.readD r' := rfl
@[simp] theorem State.readA_advance (r' : Reg) : (s.advance len).readA r' = s.readA r' := rfl

end registers

section raising

variable (s : State) (f : Fault)

@[simp] theorem State.raise_d : (s.raise f).d = s.d := rfl
@[simp] theorem State.raise_a : (s.raise f).a = s.a := rfl
@[simp] theorem State.raise_pc : (s.raise f).pc = s.pc := rfl
@[simp] theorem State.raise_sr : (s.raise f).sr = s.sr := rfl
@[simp] theorem State.raise_maps : (s.raise f).maps = s.maps := rfl
@[simp] theorem State.raise_ready : (s.raise f).ready = (s.ready && !f.isBus) := rfl
@[simp] theorem State.raise_busReset : (s.raise f).busReset = s.busReset := rfl
@[simp] theorem State.raise_draws : (s.raise f).draws = s.draws := rfl

end raising

section vector

variable (s : State) (sp npc : Word)

@[simp] theorem State.loadVector_pc : (s.loadVector sp npc).pc = npc := rfl
@[simp] theorem State.loadVector_sr : (s.loadVector sp npc).sr = Config.initStatus s.draws := rfl
@[simp] theorem State.loadVector_maps : (s.loadVector sp npc).maps = s.maps := rfl
@[simp] theorem State.loadVector_ready : (s.loadVector sp npc).ready = true := rfl
@[simp] theorem State.loadVector_busReset : (s.loadVector sp npc).busReset = s.busReset := rfl
@[simp] theorem State.loadVector_draws : (s.loadVector sp npc).draws = s.draws + 1 := rfl

/-- Every data register is a free value after `CpuReset` (R115). -/
@[simp] theorem State.readD_loadVector (r : Reg) :
    (s.loadVector sp npc).readD r = Config.initData s.draws r := by
  simp [State.readD, State.loadVector]

/-- `A7` is the vector's stack pointer and every other address register a free value (R113, R115). -/
@[simp] theorem State.readA_loadVector (r : Reg) :
    (s.loadVector sp npc).readA r = if r = 7 then sp else Config.initAddress s.draws r := by
  simp only [State.readA, State.loadVector, Fin.getElem_fin, Vector.getElem_set, Vector.getElem_ofFn,
    Fin.ext_iff, eq_comm (a := 7), Fin.eta]
  rfl

end vector

section placing

variable (s : State) (bytes : List Byte)

@[simp] theorem State.placeInstr_d : (s.placeInstr bytes).d = s.d := rfl
@[simp] theorem State.placeInstr_a : (s.placeInstr bytes).a = s.a := rfl
@[simp] theorem State.placeInstr_pc : (s.placeInstr bytes).pc = s.pc := rfl
@[simp] theorem State.placeInstr_sr : (s.placeInstr bytes).sr = s.sr := rfl
@[simp] theorem State.placeInstr_ready : (s.placeInstr bytes).ready = true := rfl
@[simp] theorem State.placeInstr_busReset : (s.placeInstr bytes).busReset = s.busReset := rfl
@[simp] theorem State.placeInstr_draws : (s.placeInstr bytes).draws = s.draws := rfl
@[simp] theorem State.placeInstr_maps :
    (s.placeInstr bytes).maps = placeBytes s.maps s.pc (bytes.take 2) (bytes.drop 2) := rfl

end placing

section bus

variable (s : State) (addr : Word) (g : Region) (p : Bool)

@[simp] theorem busAttach_d : (busAttach s addr g).d = s.d := rfl
@[simp] theorem busAttach_a : (busAttach s addr g).a = s.a := rfl
@[simp] theorem busAttach_pc : (busAttach s addr g).pc = s.pc := rfl
@[simp] theorem busAttach_sr : (busAttach s addr g).sr = s.sr := rfl
@[simp] theorem busAttach_maps : (busAttach s addr g).maps = attach s.maps addr g := rfl
@[simp] theorem busAttach_ready : (busAttach s addr g).ready = s.ready := rfl
@[simp] theorem busAttach_busReset : (busAttach s addr g).busReset = false := rfl
@[simp] theorem busAttach_draws : (busAttach s addr g).draws = s.draws := rfl

@[simp] theorem busReset_d : (busReset s p).d = s.d := rfl
@[simp] theorem busReset_a : (busReset s p).a = s.a := rfl
@[simp] theorem busReset_pc : (busReset s p).pc = s.pc := rfl
@[simp] theorem busReset_sr : (busReset s p).sr = s.sr := rfl
@[simp] theorem busReset_maps : (busReset s p).maps = resetRegionsFrom p s.draws 0 s.maps := rfl
@[simp] theorem busReset_ready : (busReset s p).ready = s.ready := rfl
@[simp] theorem busReset_busReset : (busReset s p).busReset = true := rfl
@[simp] theorem busReset_draws :
    (busReset s p).draws = if p then s.draws else s.draws + 1 := rfl

end bus

end Sys2Proof.Machine
end

