-- ==== Sys2Proof/Laws/Step.lean ====
section
/-! SUPPORT. What the shared operations of a step do: the finish of an instruction, the fetch, and the step itself
(40_dispatch.md R73 to R83). -/

namespace Sys2Proof.Machine

/-! The finish of an instruction. -/

section finish

variable (s : State) (kind : OpKind) (src : Word) (x : Reg) (len : Nat)

@[simp] theorem State.readD_finish (r : Reg) :
    (s.finish kind src x len).readD r =
      if r = x then (execute kind src (s.readD x) s.sr).1 else s.readD r := by
  simp [State.finish]

@[simp] theorem State.readA_finish (r : Reg) : (s.finish kind src x len).readA r = s.readA r := rfl
@[simp] theorem State.finish_pc : (s.finish kind src x len).pc = s.pc + BitVec.ofNat 32 len := rfl
@[simp] theorem State.finish_sr :
    (s.finish kind src x len).sr = (execute kind src (s.readD x) s.sr).2 := rfl
@[simp] theorem State.finish_a : (s.finish kind src x len).a = s.a := rfl
@[simp] theorem State.finish_maps : (s.finish kind src x len).maps = s.maps := rfl
@[simp] theorem State.finish_ready : (s.finish kind src x len).ready = s.ready := rfl
@[simp] theorem State.finish_busReset : (s.finish kind src x len).busReset = s.busReset := rfl
@[simp] theorem State.finish_draws : (s.finish kind src x len).draws = s.draws := rfl

end finish

/-- The execute stage never alters the privileged bits (R20, R79). -/
@[simp] theorem privileged_execute (kind : OpKind) (src dst : Word) (sr : Half) :
    privileged (execute kind src dst sr).2 = privileged sr := by
  cases kind <;> simp [execute]

theorem SameBytes.refl (maps : List Mapping) : SameBytes maps maps := ⟨fun _ => rfl, fun _ _ => rfl⟩

/-- What the finish of an instruction leaves unchanged, and the program counter after it. -/
theorem State.finish_frame (s : State) (kind : OpKind) (src : Word) (x : Reg) (len : Nat) :
    InstrFrame s (s.finish kind src x len) x len where
  otherData r hr := by simp [hr]
  addresses _ := rfl
  pc := rfl
  privilegedBits := by simp
  bytes := SameBytes.refl _
  maps := rfl
  ready := rfl
  busReset := rfl
  draws := rfl

/-! The instructions. -/

/-- Every instruction answers a next state: the finish of its class, over its length `2 + L`. -/
theorem exec_eq_finish (i : Instr) (s : State) :
    ∃ kind src x, exec i s = .next (s.finish kind src x (2 + i.operand.length)) := by
  cases i <;> exact ⟨_, _, _, rfl⟩

/-! The fetch. -/

/-- What the shared stages 1 to 3 answer when none of them raises. -/
theorem fetch_eq_ok_iff {t : Table} {maps : List Mapping} {a : Word} {d : Descriptor} {op : Half}
    {opnd : List Byte} :
    fetch t maps a = .ok (d, op, opnd) ↔
      ∃ ob, memRead maps a 2 = .ok ob ∧ op = be16 ob ∧ lookupDesc t op = some d ∧
        fetchOperand maps a d.operandBytes = .ok opnd := by
  unfold fetch
  constructor
  · intro h
    split at h
    · cases h
    · next ob hob =>
      split at h
      · cases h
      · next d' hd =>
        split at h
        · cases h
        · next opnd' ho =>
          cases h
          exact ⟨ob, hob, rfl, hd, ho⟩
  · rintro ⟨ob, hob, rfl, hd, ho⟩
    simp [hob, hd, ho]

theorem length_of_fetchOperand {maps : List Mapping} {a : Word} {n : Nat} {bs : List Byte}
    (h : fetchOperand maps a n = .ok bs) : bs.length = n := by
  unfold fetchOperand at h
  split at h
  · next hn => cases h; simp [hn]
  · exact length_of_memRead h

/-- Two bytes are the opcode word they hold, big-endian. -/
theorem eq_bytesBE16_of_length {bs : List Byte} (h : bs.length = 2) : bs = bytesBE16 (be16 bs) := by
  match bs, h with
  | [b0, b1], _ => exact (bytesBE16_be16 b0 b1).symm

/-- The fetched instruction is the one whose opcode word stands at the program counter and whose operand bytes
stand after it. -/
theorem State.fetchInstr_eq_ok_iff {s : State} {i : Instr} :
    s.fetchInstr = .ok i ↔
      memRead s.maps s.pc 2 = .ok (bytesBE16 i.opcode) ∧
      fetchOperand s.maps s.pc i.operand.length = .ok i.operand := by
  constructor
  · intro h
    unfold State.fetchInstr at h
    split at h
    · cases h
    · next d op opnd hf =>
      obtain ⟨ob, hob, rfl, hd, ho⟩ := fetch_eq_ok_iff.1 hf
      obtain ⟨i', hi, hop, hopnd⟩ := opcode_of_lookup hd opnd (length_of_fetchOperand ho)
      rw [hi] at h
      cases h
      rw [hop, hopnd, ← eq_bytesBE16_of_length (length_of_memRead hob), length_of_fetchOperand ho]
      exact ⟨hob, ho⟩
  · rintro ⟨hob, ho⟩
    obtain ⟨d, hd, hl, hi⟩ := lookup_opcode i
    have : fetch defaultTable s.maps s.pc = .ok (d, i.opcode, i.operand) :=
      fetch_eq_ok_iff.2 ⟨_, hob, (be16_bytesBE16 _).symm, hd, by rw [hl]; exact ho⟩
    simp [State.fetchInstr, this, hi]

/-- What a step's fetch raises is what the shared stages raise: every row of the default table resolves. -/
theorem State.fetchInstr_eq_error_iff {s : State} {f : Fault} :
    s.fetchInstr = .error f ↔ fetch defaultTable s.maps s.pc = .error f := by
  unfold State.fetchInstr
  split
  · next h => simp [h]
  · next d op opnd hf =>
    obtain ⟨ob, hob, rfl, hd, ho⟩ := fetch_eq_ok_iff.1 hf
    obtain ⟨i', hi, _⟩ := opcode_of_lookup hd opnd (length_of_fetchOperand ho)
    simp [hi, hf]

/-- What stages 1 to 3 raise, in the order of R103. -/
theorem fetch_eq_error_iff {t : Table} {maps : List Mapping} {a : Word} {f : Fault} :
    fetch t maps a = .error f ↔
      memRead maps a 2 = .error f ∨
      (∃ ob, memRead maps a 2 = .ok ob ∧ lookupDesc t (be16 ob) = none ∧ f = .invalidOpcode a (be16 ob)) ∨
      (∃ ob d, memRead maps a 2 = .ok ob ∧ lookupDesc t (be16 ob) = some d ∧
        fetchOperand maps a d.operandBytes = .error f) := by
  unfold fetch
  split
  · next g hg => simp [hg]
  · next ob hob =>
    split
    · next hd => simp [hob, hd, eq_comm]
    · next d hd =>
      split
      · next g ho => simp [hob, hd, ho]
      · next opnd ho => simp [hob, hd, ho]

/-- What stages 1 to 3 raise, with the length of the operand fetch that faults (R77, R103). -/
theorem fetch_error_cases {t : Table} {maps : List Mapping} {a : Word} {f : Fault}
    (h : fetch t maps a = .error f) :
    memRead maps a 2 = .error f ∨
    (∃ ob, memRead maps a 2 = .ok ob ∧ lookupDesc t (be16 ob) = none ∧ f = .invalidOpcode a (be16 ob)) ∨
    (∃ n, AsksOperand t maps a n ∧ memRead maps (a + 2) n = .error f) := by
  obtain h | h | ⟨ob, d, hob, hd, ho⟩ := fetch_eq_error_iff.1 h
  · exact .inl h
  · exact .inr (.inl h)
  · unfold fetchOperand at ho
    split at ho
    · cases ho
    · next hn => exact .inr (.inr ⟨d.operandBytes, ⟨hn, ob, d, hob, hd, rfl⟩, ho⟩)

/-! The step. -/

/-- Everything a completed step can do: the CPU was ready, an instruction was fetched, and its finish is the next
state. -/
theorem step_eq_next {s t : State} (h : step s = .next t) :
    s.ready = true ∧ ∃ i, s.fetchInstr = .ok i ∧ exec i s = .next t ∧
      ∃ kind src x, t = s.finish kind src x (2 + i.operand.length) := by
  unfold step at h
  split at h
  · next hr =>
    split at h
    · cases h
    · next i hi =>
      obtain ⟨kind, src, x, he⟩ := exec_eq_finish i s
      refine ⟨hr, i, hi, h, kind, src, x, ?_⟩
      rw [he] at h
      cases h
      rfl
  · cases h

/-- A step of a ready CPU runs the fetched instruction. -/
theorem step_of_fetchInstr {s : State} {i : Instr} (hr : s.ready = true) (hi : s.fetchInstr = .ok i) :
    step s = exec i s := by
  simp [step, hr, hi]

/-- A step of a ready CPU ends in the fault its fetch raises. -/
theorem step_eq_fault_iff {s : State} {f : Fault} :
    step s = .fault f ↔ s.ready = true ∧ fetch defaultTable s.maps s.pc = .error f := by
  rw [← State.fetchInstr_eq_error_iff]
  unfold step
  split
  · next hr =>
    split
    · next g hg => simp [hr, hg]
    · next i hi =>
      obtain ⟨kind, src, x, he⟩ := exec_eq_finish i s
      simp [he, hi]
  · next hr => simp [hr]

end Sys2Proof.Machine
end

