-- ==== Sys2Proof/Laws/Invariant.lean ====
section
/-! SUPPORT. Which operations keep the invariant of the state, and what one transaction can do to each part of it
(00_scope.md R7; 10_state.md R22, R27). -/

namespace Sys2Proof.Machine

/-! Mappings. -/

theorem wf_attach {maps : List Mapping} (h : ∀ m ∈ maps, m.wf) (addr : Word) (g : Region) :
    ∀ m ∈ attach maps addr g, m.wf := by
  intro m hm
  rcases List.mem_append.1 hm with hm | hm
  · exact h m hm
  · obtain rfl := List.mem_singleton.1 hm
    exact ⟨addr.isLt, Region.wf_canonical g⟩

theorem wf_resetRegionsFrom {maps : List Mapping} (h : ∀ m ∈ maps, m.wf) (p : Bool) (draw first : Nat) :
    ∀ m ∈ resetRegionsFrom p draw first maps, m.wf := by
  induction maps generalizing first with
  | nil => simp [resetRegionsFrom]
  | cons e maps ih =>
    intro m hm
    rcases List.mem_cons.1 hm with rfl | hm
    · exact ⟨(h e (by simp)).1, Region.wf_reset p draw first e.region⟩
    · exact ih (fun m' hm' => h m' (by simp [hm'])) (first + 1) m hm

theorem wf_setRegion {maps : List Mapping} (h : ∀ m ∈ maps, m.wf) {id : Nat} {m : Mapping} {g : Region}
    (hm : maps[id]? = some m) (hg : g.wf) : ∀ m' ∈ setRegion maps id m g, m'.wf := by
  intro m' hm'
  rcases List.mem_or_eq_of_mem_set hm' with hm' | rfl
  · exact h m' hm'
  · exact ⟨(h m (List.mem_of_getElem? hm)).1, hg⟩

theorem wf_written {g : Region} (h : g.wf) {off : Nat} {bs : List Byte} (hl : off + bs.length ≤ g.len) :
    Region.wf { g with mem := g.mem.writeBytes off bs } :=
  Region.wf_write (addr := 0) h (Region.write_ok_iff.2 ⟨hl, rfl⟩)

theorem wf_memWrite {maps maps' : List Mapping} (h : ∀ m ∈ maps, m.wf) {addr : Word} {bs : List Byte}
    (hw : memWrite maps addr bs = .ok maps') : ∀ m ∈ maps', m.wf := by
  obtain ⟨id, m, hl, hb, rfl⟩ := memWrite_eq_ok_iff.1 hw
  have hm := (lookup_eq_some_iff.1 hl).1
  exact wf_setRegion h hm (wf_written (h m (List.mem_of_getElem? hm)).2 hb)

theorem wf_writeId {maps maps' : List Mapping} (h : ∀ m ∈ maps, m.wf) {id : Nat} {addr : Word}
    {bs : List Byte} (hw : writeId maps id addr bs = .ok maps') : ∀ m ∈ maps', m.wf := by
  obtain ⟨m, hm, _, hb, rfl⟩ := writeId_eq_ok_iff.1 hw
  exact wf_setRegion h hm (wf_written (h m (List.mem_of_getElem? hm)).2 hb)

/-- A bus reset keeps every mapping's place and base, and resets its region under its identifier. -/
theorem getElem?_resetRegionsFrom (p : Bool) (draw first : Nat) (maps : List Mapping) (id : Nat) :
    (resetRegionsFrom p draw first maps)[id]? =
      (maps[id]?).map fun m => { m with region := m.region.reset p draw (first + id) } := by
  induction maps generalizing first id with
  | nil => simp [resetRegionsFrom]
  | cons e maps ih =>
    cases id with
    | zero => simp [resetRegionsFrom]
    | succ id =>
      have : first + 1 + id = first + (id + 1) := by omega
      simp [resetRegionsFrom, ih, this]

/-! Steps. -/

/-- What a table-driven step answers when it completes: the finish of the class its descriptor names. -/
theorem stepWith_eq_next {t : Table} {s s' : State} (h : stepWith t s = .next s') :
    s.ready = true ∧ ∃ d op opnd src, fetch t s.maps s.pc = .ok (d, op, opnd) ∧
      s.resolveSrc d op opnd = some src ∧
      s' = s.finish d.kind src (d.dst.reg op) (2 + d.operandBytes) := by
  unfold stepWith at h
  split at h
  · split at h
    · next hr =>
      split at h
      · cases h
      · next d op opnd hf =>
        split at h
        · cases h
        · next src hs =>
          cases h
          exact ⟨hr, d, op, opnd, src, hf, hs, rfl⟩
    · cases h
  · cases h

/-! Transactions. -/

/-- A response that neither raises nor reports a change: bytes read, a text, or a refusal. -/
def Quiet (s : State) (r : State × Response) : Prop := r.1 = s ∧ r.2 ≠ .done ∧ ∀ f, r.2 ≠ .fault f

theorem answerRead_cases (s : State) (r : Except Fault (List Byte)) :
    Quiet s (answerRead s r) ∨ ∃ f, answerRead s r = (s.raise f, .fault f) := by
  cases r with
  | ok bs => exact .inl ⟨rfl, by simp [answerRead], by simp [answerRead]⟩
  | error f => exact .inr ⟨f, rfl⟩

theorem answerText_cases (s : State) (r : Except Fault (String × Nat)) :
    Quiet s (answerText s r) ∨ ∃ f, answerText s r = (s.raise f, .fault f) := by
  cases r with
  | ok tl => exact .inl ⟨rfl, by simp [answerText], by simp [answerText]⟩
  | error f => exact .inr ⟨f, rfl⟩

theorem answerWrite_cases (s : State) (r : Except Fault (List Mapping)) :
    (∃ f, answerWrite s r = (s.raise f, .fault f)) ∨
    (∃ maps, r = .ok maps ∧ answerWrite s r = ({ s with maps := maps }, .done)) := by
  cases r with
  | ok maps => exact .inr ⟨maps, rfl, rfl⟩
  | error f => exact .inl ⟨f, rfl⟩

theorem answerStep_cases (s : State) (o : Host.Outcome State Fault Refusal) :
    Quiet s (answerStep s o) ∨ (∃ f, answerStep s o = (s.raise f, .fault f)) ∨
    (∃ s', o = .next s' ∧ answerStep s o = (s', .done)) := by
  cases o with
  | next s' => exact .inr (.inr ⟨s', rfl, rfl⟩)
  | fault f => exact .inr (.inl ⟨f, rfl⟩)
  | refused r => exact .inl ⟨rfl, by simp [answerStep], by simp [answerStep]⟩

/-- Everything `CpuReset` can do: be refused, raise the fault of a vector read, or load the vector (R113, R116,
R117). -/
theorem cpuReset_cases (s : State) :
    cpuReset s = (s, .refused .busNotReset) ∨ (∃ f, cpuReset s = (s.raise f, .fault f)) ∨
    (∃ sp npc, memRead s.maps 0 4 = .ok sp ∧ memRead s.maps 4 4 = .ok npc ∧
      cpuReset s = (s.loadVector (be32 sp) (be32 npc), .done)) := by
  unfold cpuReset
  split
  · split
    · exact .inr (.inl ⟨_, rfl⟩)
    · next sp hsp =>
      split
      · exact .inr (.inl ⟨_, rfl⟩)
      · next npc hnpc => exact .inr (.inr ⟨sp, npc, hsp, hnpc, rfl⟩)
  · exact .inl rfl

/-- Everything a transaction can do to the state: nothing, with a quiet response; raise a fault; attach a region; reset the regions;
write bytes; load the reset vector; or finish an instruction. -/
theorem transactWith_cases (t : Table) (s : State) (tx : Transaction) :
    Quiet s (transactWith t s tx) ∨
    (∃ f, transactWith t s tx = (s.raise f, .fault f)) ∨
    (∃ addr g, tx = .busAttach addr g ∧
      transactWith t s tx = (busAttach s addr g, .attached s.maps.length)) ∨
    (∃ p, tx = .busReset p ∧ transactWith t s tx = (busReset s p, .done)) ∨
    (∃ addr bs maps, tx = .busWrite addr bs ∧ memWrite s.maps addr bs = .ok maps ∧
      transactWith t s tx = ({ s with maps := maps }, .done)) ∨
    (∃ id addr bs maps, tx = .busWriteId id addr bs ∧ writeId s.maps id addr bs = .ok maps ∧
      transactWith t s tx = ({ s with maps := maps }, .done)) ∨
    (∃ sp npc, tx = .cpuReset ∧ memRead s.maps 0 4 = .ok sp ∧ memRead s.maps 4 4 = .ok npc ∧
      transactWith t s tx = (s.loadVector (be32 sp) (be32 npc), .done)) ∨
    (∃ s', tx = .step ∧ stepWith t s = .next s' ∧ transactWith t s tx = (s', .done)) := by
  unfold transactWith
  by_cases ht : t.wf = true
  · rw [if_pos ht]
    cases tx with
    | busAttach addr g => exact .inr (.inr (.inl ⟨addr, g, rfl, rfl⟩))
    | busReset p => exact .inr (.inr (.inr (.inl ⟨p, rfl, rfl⟩)))
    | busRead addr n =>
      rcases answerRead_cases s (memRead s.maps addr n) with h | h
      · exact .inl h
      · exact .inr (.inl h)
    | busWrite addr bs =>
      rcases answerWrite_cases s (memWrite s.maps addr bs) with h | ⟨maps, h, h'⟩
      · exact .inr (.inl h)
      · exact .inr (.inr (.inr (.inr (.inl ⟨addr, bs, maps, rfl, h, h'⟩))))
    | busReadId id addr n =>
      rcases answerRead_cases s (readId s.maps id addr n) with h | h
      · exact .inl h
      · exact .inr (.inl h)
    | busWriteId id addr bs =>
      rcases answerWrite_cases s (writeId s.maps id addr bs) with h | ⟨maps, h, h'⟩
      · exact .inr (.inl h)
      · exact .inr (.inr (.inr (.inr (.inr (.inl ⟨id, addr, bs, maps, rfl, h, h'⟩)))))
    | cpuReset =>
      rcases cpuReset_cases s with h | h | ⟨sp, npc, hsp, hnpc, h⟩
      · exact .inl (by show Quiet s (cpuReset s); rw [h]; exact ⟨rfl, by simp, by simp⟩)
      · exact .inr (.inl h)
      · exact .inr (.inr (.inr (.inr (.inr (.inr (.inl ⟨sp, npc, rfl, hsp, hnpc, h⟩))))))
    | step =>
      rcases answerStep_cases s (stepWith t s) with h | h | ⟨s', h, h'⟩
      · exact .inl h
      · exact .inr (.inl h)
      · exact .inr (.inr (.inr (.inr (.inr (.inr (.inr ⟨s', rfl, h, h'⟩))))))
    | disassemble addr =>
      rcases answerText_cases s (disassemble t s.maps addr) with h | h
      · exact .inl h
      · exact .inr (.inl h)
  · rw [if_neg ht]
    exact .inl ⟨rfl, by simp, by simp⟩

/-- Only an attachment and a bus reset change the admission bit of R117. -/
theorem transactWith_busReset_bit {t : Table} {s : State} {tx : Transaction} (ha : ∀ a g, tx ≠ .busAttach a g)
    (hr : ∀ p, tx ≠ .busReset p) : (transactWith t s tx).1.busReset = s.busReset := by
  rcases transactWith_cases t s tx with h | ⟨f, h⟩ | ⟨a, g, h, _⟩ | ⟨p, h, _⟩ | ⟨a, bs, maps, _, _, h⟩ |
    ⟨id, a, bs, maps, _, _, h⟩ | ⟨sp, npc, _, _, _, h⟩ | ⟨s', _, hs, h⟩
  · rw [h.1]
  · rw [h]; rfl
  · exact absurd h (ha a g)
  · exact absurd h (hr p)
  · rw [h]
  · rw [h]
  · rw [h]; rfl
  · obtain ⟨_, _, _, _, _, _, _, _, rfl⟩ := stepWith_eq_next hs
    rw [h]; rfl

/-! What a block with a well-formed table answers. -/

section answers

variable {t : Table} (ht : t.wf = true) (s : State)
include ht

theorem transactWith_busRead (addr : Word) (n : Nat) :
    transactWith t s (.busRead addr n) = answerRead s (memRead s.maps addr n) := if_pos ht

theorem transactWith_busWrite (addr : Word) (bs : List Byte) :
    transactWith t s (.busWrite addr bs) = answerWrite s (memWrite s.maps addr bs) := if_pos ht

theorem transactWith_busReadId (id : Nat) (addr : Word) (n : Nat) :
    transactWith t s (.busReadId id addr n) = answerRead s (readId s.maps id addr n) := if_pos ht

theorem transactWith_busWriteId (id : Nat) (addr : Word) (bs : List Byte) :
    transactWith t s (.busWriteId id addr bs) = answerWrite s (writeId s.maps id addr bs) := if_pos ht

theorem transactWith_cpuReset : transactWith t s .cpuReset = cpuReset s := if_pos ht

theorem transactWith_step : transactWith t s .step = answerStep s (stepWith t s) := if_pos ht

theorem transactWith_disassemble (addr : Word) :
    transactWith t s (.disassemble addr) = answerText s (disassemble t s.maps addr) := if_pos ht

end answers

end Sys2Proof.Machine
end

