-- ==== Sys2Proof/Laws/PerInstr.lean ====
section
/-! SUPPORT. The per-instruction family `Length`: an instruction's encoding is two bytes and its operand bytes, and
there are none or four of those (30_encoding.md R53, R67). -/

namespace Sys2Proof.Laws.Length

def Statement (i : Instr) : Prop :=
  (encode i).length = 2 + i.operand.length ∧ (i.operand.length = 0 ∨ i.operand.length = 4)

theorem moveDyDx (y x : Reg) : Statement (.moveDyDx y x) := ⟨rfl, .inl rfl⟩
theorem moveAyDx (y x : Reg) : Statement (.moveAyDx y x) := ⟨rfl, .inl rfl⟩
theorem moveImmDx (imm : Word) (x : Reg) : Statement (.moveImmDx imm x) := ⟨rfl, .inr rfl⟩
theorem addDyDx (y x : Reg) : Statement (.addDyDx y x) := ⟨rfl, .inl rfl⟩
theorem addAyDx (y x : Reg) : Statement (.addAyDx y x) := ⟨rfl, .inl rfl⟩
theorem addImmDx (imm : Word) (x : Reg) : Statement (.addImmDx imm x) := ⟨rfl, .inr rfl⟩

end Sys2Proof.Laws.Length
end

