-- ==== Sys2Proof/Tests/Slice0.lean ====
section
/-! SUPPORT. The model's own tests, with expected results from spec/95_test_vectors.md, the examples of the rules, or
a calculation by hand from them; and for every obligation with hypotheses a witness that meets them. -/

open Sys2Proof Sys2Proof.Machine

set_option maxRecDepth 20000

namespace Sys2Proof.Tests

/-! ## Helpers -/

/-- A region of `len` bytes that holds `bs` from the offset `off` on and zeros elsewhere. -/
def region (len off : Nat) (bs : List Byte) : Region := { len := len, mem := Memory.writeBytes [] off bs }

/-- A ready CPU with zero registers over a map. -/
def cpu (maps : List Mapping) (pc : Word) : State :=
  { State.powerOn with maps := maps, pc := pc, ready := true, busReset := true }

/-- A ready CPU over the map of 95_test_vectors.md 2.6 (one region of `0x100` bytes at `0x1000`), with bytes at the
program counter. -/
def code (pc : Word) (bs : List Byte) : State :=
  cpu [{ base := 0x1000, region := region 0x100 (pc.toNat - 0x1000) bs }] pc

def withA (s : State) (r : Reg) (v : Word) : State := { s with a := s.a.set r v }

/-- The condition codes as the bits X N Z V C. -/
def ccr (s : State) : BitVec 5 := s.sr.extractLsb' 0 5

def nextOf : Host.Outcome State Fault Refusal → Option State
  | .next s => some s
  | .fault _ => none
  | .refused _ => none

def faultOf : Host.Outcome State Fault Refusal → Option Fault
  | .next _ => none
  | .fault f => some f
  | .refused _ => none

def refusalOf : Host.Outcome State Fault Refusal → Option Refusal
  | .next _ => none
  | .fault _ => none
  | .refused r => some r

/-- What one step leaves in `D[x]`, in the condition codes and in the program counter. -/
def result (s : State) (x : Reg) : Option (Word × BitVec 5 × Word) :=
  (nextOf (step s)).map (fun t => (t.readD x, ccr t, t.pc))

def okOf {α : Type} : Except Fault α → Option α
  | .ok v => some v
  | .error _ => none

def errorOf {α : Type} : Except Fault α → Option Fault
  | .ok _ => none
  | .error f => some f

/-- A row with the given pattern and mask, source window and destination field. -/
def row (pattern mask : Half) (top hi : Nat) : Row :=
  { pattern := pattern, mask := mask
    desc := { defaultDescriptor 0 .move "move.l" .operand with src := .ea .modeRegister top, dst := .dataReg hi } }

/-! ## Well-formed tables -/

/-- R67: the default table is well formed. -/
theorem test_wf_default : defaultTable.wf = true := by decide

/-- R62 clause (1): a pattern bit outside the mask. -/
theorem test_wf_refuses_pattern_outside_mask : Table.wf [row 0x2001 0xFFF8 5 11] = false := by decide

/-- R62 clause (2): two rows that both match `0x2001`. -/
theorem test_wf_refuses_overlap : Table.wf [row 0x2000 0xF1F8 5 11, row 0x2001 0xFFFF 5 11] = false := by decide

/-- R57: the window parameter is 5 to 15, in either layout; 4 and 16 are refused. -/
theorem test_wf_refuses_window :
    Table.wf [row 0x2000 0xF1F8 4 11] = false ∧ Table.wf [row 0x2000 0xF1F8 16 11] = false ∧
    Table.wf [row 0x2000 0xF1F8 5 11] = true ∧ Table.wf [row 0x2000 0xF1F8 15 11] = true := by decide

/-- The destination field lies in the opcode word: 1 and 16 are refused, 2 and 15 are not. -/
theorem test_wf_refuses_destination :
    Table.wf [row 0x2000 0xF1F8 5 1] = false ∧ Table.wf [row 0x2000 0xF1F8 5 16] = false ∧
    Table.wf [row 0x2000 0xF1F8 5 2] = true ∧ Table.wf [row 0x2000 0xF1F8 5 15] = true := by decide

/-! ## Decoding -/

/-- 95_test_vectors.md 2.3 and 2.4, the bits of R67 written out. -/
theorem test_decode_moveDyDx :
    decode (bytesBE16 0b0010000000000001) = .ok (.moveDyDx 1 0, []) ∧
    decode (bytesBE16 0b0010111000000011) = .ok (.moveDyDx 3 7, []) := ⟨rfl, rfl⟩

theorem test_decode_moveAyDx :
    decode (bytesBE16 0b0010011000001111) = .ok (.moveAyDx 7 3, []) := rfl

theorem test_decode_moveImmDx :
    decode [0x24, 0x3C, 0x00, 0x00, 0x10, 0x00] = .ok (.moveImmDx 0x1000 2, []) ∧
    decode (bytesBE16 0b0010111000111100 ++ [0x12, 0x34, 0x56, 0x78, 0x9A]) =
      .ok (.moveImmDx 0x12345678 7, [0x9A]) := ⟨rfl, rfl⟩

theorem test_decode_addDyDx :
    decode (bytesBE16 0b1101000010000001) = .ok (.addDyDx 1 0, []) ∧
    decode (bytesBE16 0b1101100010000011) = .ok (.addDyDx 3 4, []) := ⟨rfl, rfl⟩

theorem test_decode_addAyDx :
    decode (bytesBE16 0b1101010010001001) = .ok (.addAyDx 1 2, []) := rfl

theorem test_decode_addImmDx :
    decode [0xD4, 0xBC, 0xFF, 0xFF, 0xFF, 0xFF] = .ok (.addImmDx 0xFFFFFFFF 2, []) := rfl

/-- The invalid words of 95_test_vectors.md 2.3. -/
theorem test_lookup_refuses : ([0x2010, 0x203B, 0x2040, 0x2080, 0x1001, 0x3001, 0xD041, 0xD1C0, 0xD181, 0xD0BD,
    0x4E71, 0x0000, 0xFFFF] : List Half).all (fun op => (lookupDesc defaultTable op).isNone) = true := by decide

/-- Too few operand bytes, or too few bytes for an opcode word. -/
theorem test_decode_truncated :
    decode [0x20, 0x3C, 0x00, 0x00, 0x00] = .error .truncated ∧ decode [0x20] = .error .truncated := ⟨rfl, rfl⟩

/-- The field decoders on the calls of 95_test_vectors.md 2.2. -/
theorem test_windows :
    decodeRM 0x2200 11 = (0, 1) ∧ decodeMR 0x2200 5 = (0, 0) ∧ decodeMR 0x203C 5 = (7, 4) ∧
    decodeRM 0x2E3C 11 = (0, 7) ∧ decodeMR 0xD489 5 = (1, 1) ∧ decodeRM 0x2200 15 = (0, 1) ∧
    decodeMR 0xFFFF 15 = (7, 7) ∧ decodeMR 0x0000 5 = (0, 0) := by decide

/-- The mode categories of R58 and the mode-7 sub-registers of R59. -/
theorem test_classify :
    classify 2 5 = .indirect 5 ∧ classify 3 5 = .postIncrement 5 ∧ classify 4 5 = .preDecrement 5 ∧
    classify 5 5 = .displacement 5 ∧ classify 6 5 = .indexed 5 ∧ classify 7 0 = .absoluteShort ∧
    classify 7 1 = .absoluteLong ∧ classify 7 2 = .pcDisplacement ∧ classify 7 3 = .pcIndexed ∧
    classify 7 4 = .immediate ∧ classify 7 5 = .unassigned 5 ∧
    (classify 7 1).mode7ExtensionBytes = some 4 ∧ (classify 7 2).mode7ExtensionBytes = some 2 := by decide

/-- The host's numbering: the first word in bits 15..0, an operand of zeros above it. -/
theorem test_table_words :
    decodeTableWord 16 0x2001 = some (.moveDyDx 1 0) ∧ decodeTableWord 16 0xD4BC = some (.addImmDx 0 2) ∧
    decodeTableWord 48 0x56781234203C = some (.moveImmDx 0x12345678 0) ∧ decodeTableWord 16 0x4E71 = none := by
  decide

/-- The first step after reset runs the word placed for it. -/
theorem test_placed_word_runs :
    result (State.reset.withFetchWord 16 0x203C) 0 = some (0, 0b00100, 6) ∧
    result (State.reset.withFetchWord 48 0x56781234D6BC) 3 = some (0x12345678, 0b00000, 6) := by decide

/-! ## Instructions -/

/-- 95_test_vectors.md W3 to W5 and 2.4: N and Z from the value, V and C cleared, X and the privileged bits kept. -/
theorem test_moveDyDx :
    result ((code 0x1000 [0x20, 0x01]).setSr 0xFFFB) 0 = some (0, 0b10100, 0x1002) ∧
    result (((code 0x1000 [0x20, 0x01]).writeD 1 0x80000000).setSr 0b00111) 0 =
      some (0x80000000, 0b01000, 0x1002) ∧
    result (((code 0x1000 [0x20, 0x01]).writeD 1 0x1000).setSr 0b01111) 0 = some (0x1000, 0b00000, 0x1002) ∧
    (nextOf (step ((code 0x1000 [0x20, 0x01]).setSr 0xFFFB))).map State.sr = some 0xFFF4 := by decide

theorem test_moveDyDx_registers :
    result (((code 0x1000 [0x2E, 0x03]).writeD 3 0xFFFFFFFF).setSr 0b10000) 7 =
      some (0xFFFFFFFF, 0b11000, 0x1002) ∧
    result ((code 0x1000 [0x2A, 0x05]).setSr 0b00001) 5 = some (0, 0b00100, 0x1002) := by decide

theorem test_moveAyDx :
    result ((withA (code 0x1000 [0x20, 0x08]) 0 0x7FFFFFFF).setSr 0b01111) 0 =
      some (0x7FFFFFFF, 0b00000, 0x1002) ∧
    result ((withA (code 0x1000 [0x26, 0x0F]) 7 0x80000000).setSr 0b10010) 3 =
      some (0x80000000, 0b11000, 0x1002) := by decide

theorem test_moveImmDx :
    result ((code 0x1000 [0x2C, 0x3C, 0, 0, 0, 0]).setSr 0b11111) 6 = some (0, 0b10100, 0x1006) ∧
    result (code 0x1000 [0x20, 0x3C, 0x80, 0, 0, 0x01]) 0 = some (0x80000001, 0b01000, 0x1006) := by decide

/-- 95_test_vectors.md W6, W7 and 2.5. -/
theorem test_addDyDx : ([(0, 0, 0, 0b00100), (1, 0xFFFFFFFF, 0, 0b10101), (0x80000000, 0x80000000, 0, 0b10111),
    (0xFFFFFFFF, 0xFFFFFFFF, 0xFFFFFFFE, 0b11001), (0x7FFFFFFF, 0x7FFFFFFF, 0xFFFFFFFE, 0b01010),
    (0x80000000, 0xFFFFFFFF, 0x7FFFFFFF, 0b10011), (0x12345678, 0x87654321, 0x99999999, 0b01000),
    (1, 2, 3, 0b00000), (1, 0x7FFFFFFF, 0x80000000, 0b01010)] : List (Word × Word × Word × BitVec 5)).all
    (fun v => result (((code 0x1000 [0xD0, 0x81]).writeD 1 v.1).writeD 0 v.2.1) 0 ==
      some (v.2.2.1, v.2.2.2, 0x1002)) = true := by decide

theorem test_addDyDx_same_register :
    result ((code 0x1000 [0xDE, 0x87]).writeD 7 0x40000000) 7 = some (0x80000000, 0b01010, 0x1002) ∧
    result ((code 0x1000 [0xDE, 0x87]).writeD 7 0x80000000) 7 = some (0, 0b10111, 0x1002) := by decide

theorem test_addAyDx :
    result ((withA (code 0x1000 [0xD4, 0x89]) 1 0xFFFFFFFF).writeD 2 1) 2 = some (0, 0b10101, 0x1002) ∧
    result ((withA (code 0x1000 [0xD0, 0x8F]) 7 0xFFC).setSr 0b11111) 0 = some (0xFFC, 0b00000, 0x1002) := by decide

theorem test_addImmDx :
    result ((code 0x1000 [0xD4, 0xBC, 0xFF, 0xFF, 0xFF, 0xFF]).writeD 2 5) 2 = some (4, 0b10001, 0x1006) ∧
    result ((code 0x1000 [0xD4, 0xBC, 0, 0, 0, 1]).writeD 2 0xFFFFFFFF) 2 = some (0, 0b10101, 0x1006) := by decide

/-! ## The step and its faults -/

/-- 95_test_vectors.md 2.6: the faults of the opcode fetch, of the operand fetch at the region's end, and an invalid
opcode. -/
theorem test_step_faults :
    faultOf (step (code 0x0FFE [])) = some (.regionNotFound 0x0FFE) ∧
    faultOf (step (code 0x10FE [0x20, 0x3C])) = some (.regionOutOfRange 0x1100 4) ∧
    faultOf (step (code 0x10FF [0x20])) = some (.regionOutOfRange 0x10FF 2) ∧
    faultOf (step (code 0x1100 [])) = some (.regionOutOfRange 0x1100 2) ∧
    faultOf (step (code 0x1101 [])) = some (.regionNotFound 0x1101) ∧
    faultOf (step (code 0x1010 [0, 0])) = some (.invalidOpcode 0x1010 0x0000) := by decide

/-- An odd program counter (R45), and the wrap of the program counter and of the operand's address (R77, R82). -/
theorem test_step_odd_and_wrap :
    result ((code 0x1001 [0xD0, 0x81]).writeD 1 2) 0 = some (2, 0b00000, 0x1003) ∧
    result (cpu [{ base := 0xFFFFFF00, region := region 0x100 0xFE [0x20, 0x01] }] 0xFFFFFFFE) 0 =
      some (0, 0b00100, 0) ∧
    faultOf (step (cpu [{ base := 0xFFFFFF00, region := region 0x100 0xFE [0x20, 0x3C] }] 0xFFFFFFFE)) =
      some (.regionNotFound 0) ∧
    result (cpu [{ base := 0, region := region 0x100 0 [1, 2, 3, 4] },
      { base := 0xFFFFFF00, region := region 0x100 0xFE [0x20, 0x3C] }] 0xFFFFFFFE) 0 =
      some (0x01020304, 0b00000, 4) := by decide

/-- A step of a CPU that is not ready is refused (R74). -/
theorem test_step_not_ready : refusalOf (step { code 0x1000 [0x20, 0x01] with ready := false }) = some .cpuNotReady :=
  by decide

/-- A bus fault leaves the CPU not ready, an invalid opcode leaves it ready (R101, R102). -/
theorem test_ready_after_faults :
    transactWith defaultTable (code 0x1100 []) .step =
      ({ code 0x1100 [] with ready := false }, .fault (.regionOutOfRange 0x1100 2)) ∧
    transactWith defaultTable (code 0x1010 [0, 0]) .step =
      (code 0x1010 [0, 0], .fault (.invalidOpcode 0x1010 0)) := by decide

/-- A table row with a source in mode 2, which the spec gives no value (R60), is refused before anything is
written; with the Register-Mode window at 5 the low sub-field is the mode. -/
theorem test_parameter_table :
    refusalOf (stepWith [row 0x2010 0xF1F8 5 11] (code 0x1000 [0x20, 0x13])) =
      some (.unresolvedOperand 0x1000 0x2013) ∧
    ((nextOf (stepWith [{ row 0x2018 0xFFFF 5 11 with
        desc := { defaultDescriptor 0 .add "add.l" .operand with src := .ea .registerMode 5 } }]
      ((code 0x1000 [0x20, 0x18]).writeD 3 7))).map (fun t => (t.readD 0, t.pc))) = some (7, 0x1002) := by decide

/-! ## The bus -/

/-- The map of 95_test_vectors.md 2.1. -/
def busMap : List Mapping :=
  attach (attach (attach [] 0 (region 0x100 0xFE [0xAA, 0xBB])) 0x100 (region 0x100 0 [0xCC])) 0x80 (region 0x10 0 [0xDD])

theorem test_lookup :
    (lookup busMap 0).map Prod.fst = some 0 ∧ (lookup busMap 0x80).map Prod.fst = some 0 ∧
    (lookup busMap 0x100).map Prod.fst = some 0 ∧ (lookup busMap 0x101).map Prod.fst = some 1 ∧
    (lookup busMap 0x200).map Prod.fst = some 1 ∧ lookup busMap 0x201 = none := by decide

/-- 95_test_vectors.md 2.1 and W1: routed and by-identifier accesses. -/
theorem test_bus_accesses :
    okOf (memRead busMap 0xFE 2) = some [0xAA, 0xBB] ∧
    errorOf (memRead busMap 0xFE 4) = some (.regionOutOfRange 0xFE 4) ∧
    errorOf (memRead busMap 0x100 1) = some (.regionOutOfRange 0x100 1) ∧
    errorOf (memRead busMap 0x200 1) = some (.regionOutOfRange 0x200 1) ∧
    okOf (memRead busMap 0x200 0) = some [] ∧
    errorOf (memRead busMap 0x201 0) = some (.regionNotFound 0x201) ∧
    errorOf (memWrite busMap 0x1FF [0xAA, 0xBB]) = some (.regionOutOfRange 0x1FF 2) ∧
    okOf (readId busMap 2 0x80 1) = some [0xDD] ∧ okOf (readId busMap 1 0x100 1) = some [0xCC] ∧
    errorOf (readId busMap 2 0x7F 1) = some (.regionOutOfRange 0x7F 1) ∧
    errorOf (readId busMap 3 0 1) = some (.badRegionId 3) ∧
    errorOf (readId busMap 1 0xFF 1) = some (.regionOutOfRange 0xFF 1) := by decide

/-- 95_test_vectors.md W2 and the byte order of 2.1. -/
theorem test_byte_order :
    ((okOf (memWrite busMap 0x10 [0x12, 0x34, 0x56, 0x78])).map (fun maps =>
      (okOf (memRead maps 0x10 4), okOf (memRead maps 0x10 2), okOf (memRead maps 0x12 2), okOf (memRead maps 0x13 1)))) =
      some (some [0x12, 0x34, 0x56, 0x78], some [0x12, 0x34], some [0x56, 0x78], some [0x78]) ∧
    be32 [0x12, 0x34, 0x56, 0x78] = 0x12345678 ∧ be16 [0x12, 0x34] = 0x1234 := by decide

/-- The top of the address space (2.1). -/
theorem test_top_of_space :
    (attach [] 0xFFFFFF00 (region 0x100 0xFE [1, 2])).map Mapping.limit = [0x100000000] ∧
    okOf (memRead (attach [] 0xFFFFFF00 (region 0x100 0xFE [1, 2])) 0xFFFFFFFE 2) = some [1, 2] ∧
    errorOf (memRead (attach [] 0xFFFFFF00 (region 0x100 0xFE [1, 2])) 0xFFFFFFFF 2) =
      some (.regionOutOfRange 0xFFFFFFFF 2) := by decide

/-- A power-on reset zeroes every region and keeps the map (R31, R41). -/
theorem test_power_on_reset :
    (transactWith defaultTable { State.powerOn with maps := busMap } (.busReset true)).1.maps =
      [{ base := 0, region := region 0x100 0 [] }, { base := 0x100, region := region 0x100 0 [] },
        { base := 0x80, region := region 0x10 0 [] }] := by decide

/-- Writing a value and then the value an unlisted offset reads as leaves the memory that was there before. -/
theorem test_canonical_memory :
    (Memory.write (Memory.write [(1, 5), (9, 7)] 4 3) 4 0) = [(1, 5), (9, 7)] ∧
    Memory.canonical 8 [(9, 1), (4, 0), (3, 2), (3, 6), (1, 5)] = [(1, 5), (3, 2)] := by decide

/-! ## Reset -/

/-- A platform with one region of `len` bytes at 0 that holds a reset vector. -/
def platform (len : Nat) (vector : List Byte) : State :=
  { State.powerOn with maps := [{ base := 0, region := region len 0 vector }], busReset := true }

/-- 95_test_vectors.md 2.7, for the registers that do not depend on a draw. -/
theorem test_cpu_reset :
    (transactWith defaultTable (platform 0x100 [0, 0, 0x10, 0, 0, 0, 0, 8]) .cpuReset).2 = .done ∧
    (transactWith defaultTable (platform 0x100 [0, 0, 0x10, 0, 0, 0, 0, 8]) .cpuReset).1.readA 7 = 0x1000 ∧
    (transactWith defaultTable (platform 0x100 [0, 0, 0x10, 0, 0, 0, 0, 8]) .cpuReset).1.pc = 8 ∧
    (transactWith defaultTable (platform 0x100 [255, 255, 255, 255, 0, 0, 0, 3]) .cpuReset).1.pc = 3 := by decide

theorem test_cpu_reset_faults :
    transactWith defaultTable (platform 6 [0, 0, 0x10, 0]) .cpuReset =
      (platform 6 [0, 0, 0x10, 0], .fault (.regionOutOfRange 4 4)) ∧
    transactWith defaultTable { State.powerOn with busReset := true } .cpuReset =
      ({ State.powerOn with busReset := true }, .fault (.regionNotFound 0)) ∧
    transactWith defaultTable { platform 8 [] with busReset := false } .cpuReset =
      ({ platform 8 [] with busReset := false }, .refused .busNotReset) := by decide

/-! ## Disassembly -/

/-- 95_test_vectors.md 2.8 and W9. -/
theorem test_disassemble :
    okOf (disassemble defaultTable (code 0x1000 [0xD0, 0x81]).maps 0x1000) = some ("add.l d1,d0", 2) ∧
    okOf (disassemble defaultTable (code 0x1000 [0x26, 0x0F]).maps 0x1000) = some ("move.l a7,d3", 2) ∧
    okOf (disassemble defaultTable (code 0x1000 [0x20, 0x3C, 0x7F, 0xFF, 0xFF, 0xFF]).maps 0x1000) =
      some ("move.l #$7FFFFFFF,d0", 6) ∧
    okOf (disassemble defaultTable (code 0x1000 [0xD0, 0xBC, 0, 0, 0, 1]).maps 0x1000) =
      some ("add.l #$00000001,d0", 6) ∧
    errorOf (disassemble defaultTable (code 0x1000 [0x4E, 0x71]).maps 0x1000) =
      some (.invalidOpcode 0x1000 0x4E71) := by decide

theorem test_render_operand :
    renderOperand 2 3 = "(a3)" ∧ renderOperand 3 0 = "(a0)+" ∧ renderOperand 4 7 = "-(a7)" ∧
    renderOperand 5 1 = "<unhandled>" ∧ renderOperand 6 0 = "<unhandled>" ∧ renderOperand 7 4 = "<unhandled>" := by
  decide

/-! ## Witnesses: states and operands that meet the hypotheses of each obligation -/

theorem witness_DecodedBytesAreEncoding :
    decode [0x20, 0x3C, 0, 0, 0, 7, 0x4E] = .ok (.moveImmDx 7 0, [0x4E]) := rfl

/-- A well-formed table, one ill formed in its window only, and two ill formed in their destination field only. -/
theorem witness_WellFormedTableMatchesOneRow :
    defaultTable.wf = true ∧ Table.wf [row 0x2000 0xF1F8 4 11] = false ∧
    Table.wf [row 0x2000 0xF1F8 5 1] = false ∧ Table.wf [row 0x2000 0xF1F8 5 16] = false := by decide

/-- The first and the last row match; no row matches. -/
theorem witness_LookupGivesTheMatchingRow :
    defaultTable.wf = true ∧ (∃ r ∈ defaultTable.take 1, 0x2E07 &&& r.mask = r.pattern) ∧
    (∃ r ∈ defaultTable.drop 5, 0xDEBC &&& r.mask = r.pattern) ∧
    (∀ r ∈ defaultTable, 0x4E71 &&& r.mask ≠ r.pattern) ∧ (code 0x1000 [0x4E, 0x71]).ready = true ∧
    okOf (memRead (code 0x1000 [0x4E, 0x71]).maps 0x1000 2) = some (bytesBE16 0x4E71) := by decide

theorem witness_ExactRowsKeyByOpcodeValue :
    (∀ r ∈ [row 0x2001 0xFFFF 5 11], r.mask = 0xFFFF) ∧
    (lookupDesc [row 0x2001 0xFFFF 5 11] 0x2001).isSome = true ∧
    lookupDesc [row 0x2001 0xFFFF 5 11] 0x2002 = none := by decide

/-- Both ends of the window parameter's range, in both layouts, on a word whose fields differ. -/
theorem witness_WindowsSelectModeAndRegister :
    (5 ≤ 5 ∧ 5 ≤ 15 ∧ 2 < 3) ∧ (5 ≤ 15 ∧ 15 ≤ 15 ∧ 0 < 3) ∧
    decodeRM 0xD489 5 = (1, 1) ∧ decodeMR 0xD48C 5 = (1, 4) ∧ decodeRM 0xD48C 15 = (5, 6) ∧
    decodeMR 0xD48C 15 = (6, 5) := by decide

/-- With an operand and without one. -/
theorem witness_StepRunsDecodedInstruction :
    ((code 0x1000 [0x20, 0x01]).ready = true ∧ memRead (code 0x1000 [0x20, 0x01]).maps 0x1000 2 = .ok [0x20, 0x01] ∧
      decode ([0x20, 0x01] ++ []) = .ok (.moveDyDx 1 0, [])) ∧
    ((code 0x10FA [0x20, 0x3C, 1, 2, 3, 4]).ready = true ∧
      memRead (code 0x10FA [0x20, 0x3C, 1, 2, 3, 4]).maps 0x10FA 2 = .ok [0x20, 0x3C] ∧
      decode ([0x20, 0x3C] ++ [1, 2, 3, 4]) = .ok (.moveImmDx 0x01020304 0, []) ∧
      memRead (code 0x10FA [0x20, 0x3C, 1, 2, 3, 4]).maps 0x10FC 4 = .ok [1, 2, 3, 4]) :=
  ⟨⟨rfl, rfl, rfl⟩, rfl, rfl, rfl, rfl⟩

/-- A data register row at both ends of the register numbers, an address register row, an immediate row with its
operand, one whose operand's place is the end of the region, and an opcode fetch that faults. -/
theorem witness_StepRunsMoveRows :
    (∀ pc bs, (code pc bs).ready = true ∧ (code pc bs).pc = pc) ∧
    memRead (code 0x1000 [0x2E, 0x00]).maps 0x1000 2 = .ok (bytesBE16 (0b0010#4 ++ 7#3 ++ 0b000000#6 ++ 0#3)) ∧
    memRead (code 0x10FE [0x20, 0x0F]).maps 0x10FE 2 = .ok (bytesBE16 (0b0010#4 ++ 0#3 ++ 0b000001#6 ++ 7#3)) ∧
    (memRead (code 0x10FA [0x2E, 0x3C, 1, 2, 3, 4]).maps 0x10FA 2 =
        .ok (bytesBE16 (0b0010#4 ++ 7#3 ++ 0b000111100#9)) ∧
      memRead (code 0x10FA [0x2E, 0x3C, 1, 2, 3, 4]).maps (0x10FA + 2) 4 = .ok [1, 2, 3, 4]) ∧
    (memRead (code 0x10FE [0x20, 0x3C]).maps 0x10FE 2 = .ok (bytesBE16 (0b0010#4 ++ 0#3 ++ 0b000111100#9)) ∧
      memRead (code 0x10FE [0x20, 0x3C]).maps (0x10FE + 2) 4 = .error (.regionOutOfRange 0x1100 4) ∧
      ∃ m, lookup (code 0x10FE [0x20, 0x3C]).maps (0x10FE + 2 : Word).toNat = some (0, m) ∧
        (0x10FE + 2 : Word).toNat = m.base + m.region.len) ∧
    memRead (code 0x1101 []).maps 0x1101 2 = .error (.regionNotFound 0x1101) :=
  ⟨fun _ _ => ⟨rfl, rfl⟩, rfl, rfl, ⟨rfl, rfl⟩, ⟨rfl, rfl, _, rfl, rfl⟩, rfl⟩

theorem witness_StepRunsAddRows :
    (∀ pc bs, (code pc bs).ready = true ∧ (code pc bs).pc = pc) ∧
    memRead (code 0x1000 [0xDE, 0x80]).maps 0x1000 2 = .ok (bytesBE16 (0b1101#4 ++ 7#3 ++ 0b010000#6 ++ 0#3)) ∧
    memRead (code 0x10FE [0xD0, 0x8F]).maps 0x10FE 2 = .ok (bytesBE16 (0b1101#4 ++ 0#3 ++ 0b010001#6 ++ 7#3)) ∧
    (memRead (code 0x10FA [0xDE, 0xBC, 1, 2, 3, 4]).maps 0x10FA 2 =
        .ok (bytesBE16 (0b1101#4 ++ 7#3 ++ 0b010111100#9)) ∧
      memRead (code 0x10FA [0xDE, 0xBC, 1, 2, 3, 4]).maps (0x10FA + 2) 4 = .ok [1, 2, 3, 4]) ∧
    (memRead (code 0x10FE [0xD0, 0xBC]).maps 0x10FE 2 = .ok (bytesBE16 (0b1101#4 ++ 0#3 ++ 0b010111100#9)) ∧
      memRead (code 0x10FE [0xD0, 0xBC]).maps (0x10FE + 2) 4 = .error (.regionOutOfRange 0x1100 4) ∧
      ∃ m, lookup (code 0x10FE [0xD0, 0xBC]).maps (0x10FE + 2 : Word).toNat = some (0, m) ∧
        (0x10FE + 2 : Word).toNat = m.base + m.region.len) ∧
    memRead (code 0x1100 []).maps 0x1100 2 = .error (.regionOutOfRange 0x1100 2) :=
  ⟨fun _ _ => ⟨rfl, rfl⟩, rfl, rfl, ⟨rfl, rfl⟩, ⟨rfl, rfl, _, rfl, rfl⟩, rfl⟩

/-- Clause by clause, each at the boundary: one past the region's inclusive end, the end itself and the last byte;
an invalid opcode; no operand in the region's last word; an operand at a place nothing claims (past the top of the
space), one that ends one byte past the region, and one that ends with it. -/
theorem witness_StepFaultsInStageOrder :
    (∀ maps pc, (cpu maps pc).ready = true ∧ (cpu maps pc).pc = pc ∧ (cpu maps pc).maps = maps) ∧
    lookup (code 0x1101 []).maps 0x1101 = none ∧
    (∃ id m, lookup (code 0x10FF []).maps 0x10FF = some (id, m) ∧ m.base + m.region.len < 0x10FF + 2) ∧
    (memRead (code 0x1010 [0, 0]).maps 0x1010 2 = .ok [0, 0] ∧ lookupDesc defaultTable (be16 [0, 0]) = none) ∧
    (∃ d, memRead (code 0x10FE [0x20, 0x01]).maps 0x10FE 2 = .ok [0x20, 0x01] ∧
      lookupDesc defaultTable (be16 [0x20, 0x01]) = some d ∧ d.operandBytes = 0) ∧
    (∃ d, memRead [{ base := 0xFFFFFF00, region := region 0x100 0xFE [0x20, 0x3C] }] 0xFFFFFFFE 2 =
        .ok [0x20, 0x3C] ∧
      lookupDesc defaultTable (be16 [0x20, 0x3C]) = some d ∧ d.operandBytes ≠ 0 ∧
      lookup [{ base := 0xFFFFFF00, region := region 0x100 0xFE [0x20, 0x3C] }] (0xFFFFFFFE + 2 : Word).toNat =
        none) ∧
    (∃ d id m, memRead (code 0x10FB [0x20, 0x3C]).maps 0x10FB 2 = .ok [0x20, 0x3C] ∧
      lookupDesc defaultTable (be16 [0x20, 0x3C]) = some d ∧
      lookup (code 0x10FB [0x20, 0x3C]).maps 0x10FD = some (id, m) ∧
      m.base + m.region.len < 0x10FD + d.operandBytes) ∧
    (∃ d id m, memRead (code 0x10FA [0x20, 0x3C]).maps 0x10FA 2 = .ok [0x20, 0x3C] ∧
      lookupDesc defaultTable (be16 [0x20, 0x3C]) = some d ∧
      lookup (code 0x10FA [0x20, 0x3C]).maps 0x10FC = some (id, m) ∧
      0x10FC + d.operandBytes ≤ m.base + m.region.len) :=
  ⟨fun _ _ => ⟨rfl, rfl, rfl⟩, by decide, ⟨_, _, rfl, by decide⟩, ⟨rfl, rfl⟩, ⟨_, rfl, rfl, rfl⟩, ⟨_, by decide +kernel, rfl, by decide, by decide⟩,
    ⟨_, _, _, rfl, rfl, rfl, by decide⟩, ⟨_, _, _, rfl, rfl, rfl, by decide⟩⟩

theorem witness_StepRefusedExactlyWhenNotReady :
    State.powerOn.ready = false ∧ (code 0x1000 [0x20, 0x01]).ready = true := by decide

/-- Over the default table, and over a table of one exact row in the other layout. -/
theorem witness_CompletedStepFrame :
    (∃ s', stepWith defaultTable (code 0x1000 [0xD4, 0xBC, 0, 0, 0, 1]) = .next s') ∧
    (∃ s', stepWith [{ row 0x2018 0xFFFF 5 11 with
      desc := { defaultDescriptor 0 .add "add.l" .operand with src := .ea .registerMode 5 } }]
      (code 0x1000 [0x20, 0x18]) = .next s') := ⟨⟨_, rfl⟩, ⟨_, rfl⟩⟩

/-- A step over a well-formed table that completes, one that faults, and one that is refused. -/
theorem witness_TableEngineAgreesWithDispatch :
    defaultTable.wf = true ∧ (∃ s', stepWith defaultTable (code 0x1000 [0xD0, 0x81]) = .next s') ∧
    stepWith defaultTable (code 0x1100 []) = .fault (.regionOutOfRange 0x1100 2) ∧
    stepWith defaultTable State.powerOn = .refused .cpuNotReady := ⟨rfl, ⟨_, rfl⟩, rfl, rfl⟩

/-- The descriptor of a lookup, where its operand length matters only. -/
theorem asksOperand_eq {t : Table} {maps : List Mapping} {a : Word} {ob : List Byte} {n : Nat}
    (hob : memRead maps a 2 = .ok ob) (h : AsksOperand t maps a n) :
    (lookupDesc t (be16 ob)).map Descriptor.operandBytes = some n := by
  obtain ⟨_, ob', d, hob', hd, rfl⟩ := h
  rw [hob] at hob'
  cases hob'
  rw [hd]
  rfl

/-- Pairs of states that differ in a byte the step does not fetch: after an operand; right after an opcode word that
has no operand; right after an invalid one. -/
theorem witness_StepSeesOnlyFetchedBytes :
    (∀ pc bs bs', (code pc bs').d = (code pc bs).d ∧ (code pc bs').a = (code pc bs).a ∧ (code pc bs').pc = pc ∧
      (code pc bs').sr = (code pc bs).sr ∧ (code pc bs').ready = (code pc bs).ready) ∧
    (memRead (code 0x1000 [0x20, 0x3C, 1, 2, 3, 4, 9]).maps 0x1000 2 =
        memRead (code 0x1000 [0x20, 0x3C, 1, 2, 3, 4]).maps 0x1000 2 ∧
      (∀ n, AsksOperand defaultTable (code 0x1000 [0x20, 0x3C, 1, 2, 3, 4]).maps 0x1000 n →
        memRead (code 0x1000 [0x20, 0x3C, 1, 2, 3, 4, 9]).maps (0x1000 + 2) n =
          memRead (code 0x1000 [0x20, 0x3C, 1, 2, 3, 4]).maps (0x1000 + 2) n) ∧
      (code 0x1000 [0x20, 0x3C, 1, 2, 3, 4, 9]).maps ≠ (code 0x1000 [0x20, 0x3C, 1, 2, 3, 4]).maps ∧
      ∃ t, step (code 0x1000 [0x20, 0x3C, 1, 2, 3, 4]) = .next t) ∧
    (memRead (code 0x1000 [0x20, 0x01, 9]).maps 0x1000 2 = memRead (code 0x1000 [0x20, 0x01]).maps 0x1000 2 ∧
      (∀ n, ¬ AsksOperand defaultTable (code 0x1000 [0x20, 0x01]).maps 0x1000 n) ∧
      (∃ t, step (code 0x1000 [0x20, 0x01]) = .next t)) ∧
    (memRead (code 0x1000 [0, 0, 9]).maps 0x1000 2 = memRead (code 0x1000 []).maps 0x1000 2 ∧
      (∀ n, ¬ AsksOperand defaultTable (code 0x1000 []).maps 0x1000 n) ∧
      step (code 0x1000 []) = .fault (.invalidOpcode 0x1000 0)) := by
  refine ⟨fun _ _ _ => ⟨rfl, rfl, rfl, rfl, rfl⟩, ⟨rfl, fun n h => ?_, by decide, ⟨_, rfl⟩⟩,
    ⟨rfl, fun n h => ?_, ⟨_, rfl⟩⟩, rfl, fun n h => ?_, rfl⟩
  · obtain rfl : 4 = n := Option.some.inj (asksOperand_eq (ob := [0x20, 0x3C]) rfl h)
    rfl
  · obtain rfl : 0 = n := Option.some.inj (asksOperand_eq (ob := [0x20, 0x01]) rfl h)
    exact h.1 rfl
  · have : none = some n := asksOperand_eq (ob := [0, 0]) rfl h
    cases this

/-- Both kinds of write, to the last place in the region where an immediate fits. -/
theorem witness_StepRunsFreshlyWrittenBytes :
    ((code 0x10FA []).wf ∧ (code 0x10FA []).ready = true ∧
      transactWith defaultTable (code 0x10FA []) (.busWrite 0x10FA (encode (.addImmDx 0x01020304 5))) =
        (code 0x10FA [0xDA, 0xBC, 1, 2, 3, 4], .done) ∧
      (0x10FA + 2 < 2 ^ 32 ∧ (lookup (code 0x10FA []).maps (0x10FA + 2 : Word).toNat).map Prod.fst =
        (lookup (code 0x10FA []).maps 0x10FA).map Prod.fst)) ∧
    (∃ m, lookup (code 0x10FA []).maps 0x10FA = some (0, m)) ∧
    transactWith defaultTable (code 0x10FA []) (.busWriteId 0 0x10FA (encode (.addImmDx 0x01020304 5))) =
      (code 0x10FA [0xDA, 0xBC, 1, 2, 3, 4], .done) := ⟨by decide, ⟨_, rfl⟩, by decide⟩

/-- On the state after reset, and on a state in which no region claims the program counter. -/
theorem witness_PlacedWordIsRun :
    State.reset.wf ∧ State.powerOn.wf ∧ decodeTableWord 16 0xD0BC = some (.addImmDx 0 0) ∧
    decodeTableWord 16 0x2E07 = some (.moveDyDx 7 7) := by decide

theorem witness_DisassembledLengthIsStepAdvance :
    disassemble defaultTable (code 0x1000 [0x24, 0x3C, 0, 0, 0x10, 0]).maps 0x1000 = .ok ("move.l #$00001000,d2", 6) ∧
    (code 0x1000 [0x24, 0x3C, 0, 0, 0x10, 0]).pc = 0x1000 ∧
    ∃ s', stepWith defaultTable (code 0x1000 [0x24, 0x3C, 0, 0, 0x10, 0]) = .next s' := ⟨rfl, rfl, ⟨_, rfl⟩⟩

/-- Each kind of fault that both can raise. -/
theorem witness_DisassemblyRaisesLikeStep :
    (code 0x1101 []).ready = true ∧
    disassemble defaultTable (code 0x1101 []).maps 0x1101 = .error (.regionNotFound 0x1101) ∧
    disassemble defaultTable (code 0x10FE [0x20, 0x3C]).maps 0x10FE = .error (.regionOutOfRange 0x1100 4) ∧
    disassemble defaultTable (code 0x1010 []).maps 0x1010 = .error (.invalidOpcode 0x1010 0) := ⟨rfl, rfl, rfl, rfl⟩

theorem witness_DisassemblyWritesNothing :
    transactWith defaultTable (code 0x1000 [0xD0, 0x81]) (.disassemble 0x1000) =
      (code 0x1000 [0xD0, 0x81], .text "add.l d1,d0" 2) ∧
    (defaultTable.wf = true ∧ memRead (code 0x1000 [0x4E, 0x71]).maps 0x1000 2 = .ok [0x4E, 0x71] ∧
      lookupDesc defaultTable (be16 [0x4E, 0x71]) = none) := ⟨rfl, rfl, rfl, rfl⟩

theorem witness_DisassembledTextOfEveryInstruction :
    memRead (code 0x1000 [0xD4, 0x89]).maps 0x1000 2 = .ok (bytesBE16 (Instr.addAyDx 1 2).opcode) ∧
    (memRead (code 0x1000 [0x20, 0x3C, 0x7F, 255, 255, 255]).maps 0x1000 2 =
        .ok (bytesBE16 (Instr.moveImmDx 0x7FFFFFFF 0).opcode) ∧
      memRead (code 0x1000 [0x20, 0x3C, 0x7F, 255, 255, 255]).maps (0x1000 + 2) 4 =
        .ok (Instr.moveImmDx 0x7FFFFFFF 0).operand) := ⟨rfl, rfl, rfl⟩

/-- The boundary address of two adjacent regions, the one after it, and an address nothing claims. -/
theorem witness_LookupIsFirstInclusiveMatch :
    (∃ m, lookup busMap 0x100 = some (0, m)) ∧ (∃ m, lookup busMap 0x101 = some (1, m)) ∧
    ((0x201 : Word).toNat = 0x201 ∧ lookup busMap 0x201 = none) := ⟨⟨_, rfl⟩, ⟨_, rfl⟩, rfl, rfl⟩

/-- A place nothing claims, a read that ends with its region, and one that ends one byte after it though another region
holds that byte. -/
theorem witness_RoutedReadStaysInItsRegion :
    (defaultTable.wf = true ∧ (cpu busMap 0).maps = busMap ∧ memRead busMap 0xFE 2 = .ok [0xAA, 0xBB] ∧
      memRead busMap 0xFE 3 = .error (.regionOutOfRange 0xFE 3)) ∧
    lookup busMap (0x201 : Word).toNat = none ∧ ∃ m, lookup busMap (0xFE : Word).toNat = some (0, m) ∧ (0xFE : Word).toNat - m.base + 2 ≤ m.region.len ∧
      m.region.len < (0xFE : Word).toNat - m.base + 3 := ⟨⟨rfl, rfl, rfl, rfl⟩, rfl, _, rfl, by decide, by decide⟩

theorem witness_RoutedWriteReadsBack :
    (∀ m ∈ busMap, m.wf) ∧ lookup busMap (0x201 : Word).toNat = none ∧
    (∃ m, lookup busMap (0xFE : Word).toNat = some (0, m) ∧
      (0xFE : Word).toNat - m.base + [1, 0].length ≤ m.region.len ∧
      m.region.len < (0xFE : Word).toNat - m.base + [1, 0, 2].length) ∧
    (defaultTable.wf = true ∧ (cpu busMap 0).maps = busMap ∧
      (∃ maps', memWrite busMap 0xFE [1, 0] = .ok maps') ∧
      memWrite busMap 0x1FF [0xAA, 0xBB] = .error (.regionOutOfRange 0x1FF 2)) :=
  ⟨by decide, rfl, ⟨_, rfl, by decide, by decide⟩, rfl, rfl, ⟨_, rfl⟩, rfl⟩

/-- An identifier one past the last; an address one below the base, an access that ends with the region, and one that
ends one byte after it. -/
theorem witness_AccessByIdentifier :
    (∀ m ∈ busMap, m.wf) ∧ busMap.length ≤ 3 ∧
    ∃ m, busMap[2]? = some m ∧ (0x7F : Word).toNat < m.base ∧
      (m.base ≤ (0x8F : Word).toNat ∧ (0x8F : Word).toNat - m.base + 1 ≤ m.region.len) ∧
      m.region.len < (0x8F : Word).toNat - m.base + 2 ∧
      (defaultTable.wf = true ∧ readId (cpu busMap 0).maps 2 0x8F 1 = .ok [0] ∧
        readId (cpu busMap 0).maps 2 0x8F 2 = .error (.regionOutOfRange 0x8F 2) ∧
        (∃ maps', writeId (cpu busMap 0).maps 2 0x8F [1] = .ok maps') ∧
        writeId (cpu busMap 0).maps 2 0x8F [1, 2] = .error (.regionOutOfRange 0x8F 2)) :=
  ⟨by decide, by decide, _, rfl, by decide, by decide, by decide, rfl, rfl, rfl, ⟨_, rfl⟩, rfl⟩

theorem witness_MixedWidthAccessIsBigEndian :
    (∀ m ∈ busMap, m.wf) ∧ (∃ maps', memWrite busMap 0xFC (bytesBE32 0x12345678) = .ok maps' ∧
      (lookup maps' (0xFC + 2 : Word).toNat).map Prod.fst = (lookup maps' (0xFC : Word).toNat).map Prod.fst) ∧
    (0xFC : Word).toNat + 2 < 2 ^ 32 := ⟨by decide, ⟨_, rfl, rfl⟩, by decide⟩

/-- A region that overlaps an attached one and whose cells are not in canonical form; after it a run without a bus
reset, in which a host write completes, a `CpuReset` is refused and a read faults. -/
theorem witness_AttachmentAppends :
    defaultTable.wf = true ∧
    (transactWith defaultTable (cpu busMap 0) (.busAttach 0x80 { len := 2, mem := [(1, 4), (0, 0)] })).2 = .attached 3 ∧
    lookup busMap 0x80 ≠ none ∧
    (∀ p, Transaction.busReset p ∉ [.busWrite 0x10 [1], .cpuReset, .busRead 0x201 1]) ∧
    (transactWith defaultTable (runWith defaultTable (busAttach (cpu busMap 0) 0x80 { len := 2, mem := [(1, 4), (0, 0)] })
      [.busWrite 0x10 [1], .cpuReset, .busRead 0x201 1]) .cpuReset).2 = .refused .busNotReset := by
  refine ⟨by decide, by decide, by decide, fun p => ?_, by decide⟩
  cases p <;> decide

/-- A byte at a region's last offset and none at its length; after the reset a run without an attachment. -/
theorem witness_BusResetContents :
    defaultTable.wf = true ∧ byteAt busMap 0 0xFE = some 0xAA ∧ byteAt busMap 0 0xFF = some 0xBB ∧
    byteAt busMap 0 0x100 = none ∧ (∀ a g, Transaction.busAttach a g ∉ [.busRead 0x201 1, .cpuReset]) :=
  ⟨by decide, by decide, by decide, by decide, fun a g h => by simp at h⟩

/-- Before a bus reset; a fault of the first read; a fault of the second; both read. -/
theorem witness_CpuResetLoadsVector :
    defaultTable.wf = true ∧ State.powerOn.busReset = false ∧
    ((platform 3 []).busReset = true ∧ memRead (platform 3 []).maps 0 4 = .error (.regionOutOfRange 0 4)) ∧
    (memRead (platform 7 [0, 0, 0x10]).maps 0 4 = .ok [0, 0, 0x10, 0] ∧
      memRead (platform 7 [0, 0, 0x10]).maps 4 4 = .error (.regionOutOfRange 4 4)) ∧
    (memRead (platform 8 [0, 0, 0x10]).maps 0 4 = .ok [0, 0, 0x10, 0] ∧
      memRead (platform 8 [0, 0, 0x10]).maps 4 4 = .ok [0, 0, 0, 0]) :=
  ⟨rfl, rfl, ⟨rfl, rfl⟩, ⟨rfl, rfl⟩, rfl, rfl⟩

/-- A bus fault and an invalid opcode; the hypothesis of `InvalidOpcodeRepeats` is the second. -/
theorem witness_RaisingTransactionIsPrecise :
    transactWith defaultTable (code 0x1100 []) .step =
      ({ code 0x1100 [] with ready := false }, .fault (.regionOutOfRange 0x1100 2)) ∧
    (Fault.regionOutOfRange 0x1100 2).isBus = true ∧
    transactWith defaultTable (code 0x1010 []) .step = (code 0x1010 [], .fault (.invalidOpcode 0x1010 0)) ∧
    (Fault.invalidOpcode 0x1010 0).isBus = false := by decide

theorem witness_InvalidOpcodeRepeats :
    transactWith defaultTable (code 0x1010 [0x4E, 0x71]) .step =
      (code 0x1010 [0x4E, 0x71], .fault (.invalidOpcode 0x1010 0x4E71)) := by decide

/-- Every kind of fault; of the out-of-range one, the opcode fetch, the operand fetches of a step and of a disassembly,
an address below the base and an access past the end by identifier. -/
theorem witness_FaultsComeFromTheirCauses :
    (transactWith defaultTable (code 0x1010 []) (.disassemble 0x1010)).2 = .fault (.invalidOpcode 0x1010 0) ∧
    (transactWith defaultTable (code 0x1010 []) (.busRead 0x1101 0)).2 = .fault (.regionNotFound 0x1101) ∧
    (transactWith defaultTable (code 0x10FF []) .step).2 = .fault (.regionOutOfRange 0x10FF 2) ∧
    (transactWith defaultTable (code 0x10FB [0xD0, 0xBC]) .step).2 = .fault (.regionOutOfRange 0x10FD 4) ∧
    (transactWith defaultTable (code 0x10FE [0x20, 0x3C]) (.disassemble 0x10FE)).2 =
      .fault (.regionOutOfRange 0x1100 4) ∧
    (transactWith defaultTable (code 0x1010 []) (.busWriteId 0 0x0FFF [])).2 = .fault (.regionOutOfRange 0x0FFF 0) ∧
    (transactWith defaultTable (code 0x1010 []) (.busReadId 0 0x10FF 2)).2 = .fault (.regionOutOfRange 0x10FF 2) ∧
    (transactWith defaultTable (code 0x1010 []) (.busReadId 1 0x1000 1)).2 = .fault (.badRegionId 1) := by decide

/-- A transaction for each clause: a completed step, a host write that changes the map, a host read. -/
theorem witness_RegisterAndMemoryWriters :
    ((.step : Transaction) ≠ .cpuReset ∧ (transactWith defaultTable (code 0x1000 [0xD0, 0x81]) .step).2 = .done) ∧
    ((.busWrite 0x1000 [7] : Transaction) ≠ .cpuReset ∧ (.busWrite 0x1000 [7] : Transaction) ≠ .step ∧
      (transactWith defaultTable (code 0x1000 []) (.busWrite 0x1000 [7])).1.maps = (code 0x1000 [7]).maps) ∧
    (transactWith defaultTable (code 0x1000 [7]) (.busRead 0x1000 1)).2 = .bytes [7] := by decide

theorem witness_RunsKeepPrivilegedBits :
    (∀ tx ∈ [Transaction.step, .step, .busReset true], tx ≠ .cpuReset) ∧
    (runWith defaultTable (code 0x1000 [0xD0, 0x81, 0x20, 0x01]) [.step, .step, .busReset true]).pc = 0x1004 := by
  decide

/-- A bus fault of a host read, then an attachment, a refused `CpuReset` and a bus reset. -/
theorem witness_BusFaultIsTerminal :
    defaultTable.wf = true ∧
    (transactWith defaultTable (code 0x1000 []) (.busRead 0 1)).2 = .fault (.regionNotFound 0) ∧
    (Fault.regionNotFound 0).isBus = true ∧
    NoCompletedReset defaultTable (transactWith defaultTable (code 0x1000 []) (.busRead 0 1)).1
      [.busAttach 0 (region 8 0 []), .cpuReset, .busReset true] :=
  ⟨rfl, rfl, rfl, by decide, by decide, by decide, trivial⟩

/-- A safe run with a completed step and a step that answers `InvalidOpcode`. -/
theorem witness_SafeRunStaysReady :
    (code 0x1000 [0x20, 0x01]).ready = true ∧ SafeRun defaultTable (code 0x1000 [0x20, 0x01]) [.step, .step] ∧
    (transactWith defaultTable (runWith defaultTable (code 0x1000 [0x20, 0x01]) [.step]) .step).2 =
      .fault (.invalidOpcode 0x1002 0) :=
  ⟨rfl, ⟨by decide, by decide, trivial⟩, by decide⟩

theorem witness_TransactionsKeepInvariant :
    (code 0x1000 [0x20, 0x01]).wf ∧ ∃ s', step (code 0x1000 [0x20, 0x01]) = .next s' := ⟨by decide, _, rfl⟩

end Sys2Proof.Tests
end

/-! PROOFS. The statements of 20_memory.md about the lookup and the accesses (R29 to R40): the lookup's first inclusive
match, the routed read and write, and the accesses by identifier. -/

namespace Sys2Proof.Machine

/-! Facts about the bus that the statements share. -/

theorem Mapping.claims_eq_false_iff {m : Mapping} {addr : Nat} :
    m.claims addr = false ↔ addr < m.base ∨ m.base + m.region.len < addr := by
  rw [Bool.eq_false_iff, ne_eq, Mapping.claims_iff, Mapping.limit]
  omega

theorem byteAt_of_lt {maps : List Mapping} {id off : Nat} {m : Mapping} (hm : maps[id]? = some m)
    (ho : off < m.region.len) : byteAt maps id off = some (m.region.mem.read off) := by
  simp [byteAt, hm, ho]

/-- A read that stays in the region answers the region's own bytes, at consecutive offsets (R29). -/
theorem getElem?_readBytes_eq_byteAt {maps : List Mapping} {id off n k : Nat} {m : Mapping}
    (hm : maps[id]? = some m) (hl : off + n ≤ m.region.len) (hk : k < n) :
    (m.region.mem.readBytes off n)[k]? = byteAt maps id (off + k) := by
  rw [Memory.getElem?_readBytes, if_pos hk, byteAt_of_lt hm (by omega)]

/-- The mappings after the bytes `bs` are put at the offset `off` of the mapping `m`, whose identifier is `id`: what
a successful write leaves. -/
abbrev putBytes (maps : List Mapping) (id : Nat) (m : Mapping) (off : Nat) (bs : List Byte) :
    List Mapping :=
  setRegion maps id m { m.region with mem := m.region.mem.writeBytes off bs }

/-- Bytes put in the mapping that an address is routed to leave it routed there. -/
theorem lookup_putBytes_of_lookup {maps : List Mapping} {id addr off : Nat} {m : Mapping} {bs : List Byte}
    (hlk : lookup maps addr = some (id, m)) :
    lookup (putBytes maps id m off bs) addr =
      some (id, { m with region := { m.region with mem := m.region.mem.writeBytes off bs } }) := by
  have hlen : Region.len { m.region with mem := m.region.mem.writeBytes off bs } = m.region.len := rfl
  rw [putBytes, lookup_setRegion (lookup_eq_some_iff.1 hlk).1 hlen, hlk]
  simp

section put

variable {maps : List Mapping} {id off : Nat} {m : Mapping} {bs : List Byte}
  (hwf : ∀ m ∈ maps, m.wf) (hm : maps[id]? = some m)
include hwf hm

theorem memory_wf_of_getElem? : m.region.mem.wf := (hwf m (List.mem_of_getElem? hm)).2.1

/-- The bytes put, read from the region they were put in. -/
theorem byteAt_putBytes_of_lt (hl : off + bs.length ≤ m.region.len) {k : Nat} (hk : k < bs.length) :
    byteAt (putBytes maps id m off bs) id (off + k) = bs[k]? := by
  rw [byteAt_of_lt ((getElem?_setRegion hm id).trans (if_pos rfl)) (by simp only; omega),
    Memory.read_writeBytes (memory_wf_of_getElem? hwf hm), if_pos (by omega), Nat.add_sub_cancel_left]
  simp [List.getD_eq_getElem?_getD, hk]

/-- Every byte outside the range put, of that region and of every other, is as before (R32, R37). -/
theorem byteAt_putBytes_of_not_written {id' off' : Nat}
    (h : ¬ (id' = id ∧ off ≤ off' ∧ off' < off + bs.length)) :
    byteAt (putBytes maps id m off bs) id' off' = byteAt maps id' off' := by
  unfold byteAt
  rw [getElem?_setRegion hm]
  by_cases hid : id' = id
  · subst hid
    rw [if_pos rfl, hm]
    simp only
    rw [Memory.read_writeBytes (memory_wf_of_getElem? hwf hm), if_neg fun hr => h ⟨rfl, hr⟩]
  · rw [if_neg hid]

end put

/-- A routed write that answers reads back (R37). -/
theorem memRead_of_memWrite {maps maps' : List Mapping} {a : Word} {bs : List Byte}
    (hwf : ∀ m ∈ maps, m.wf) (hw : memWrite maps a bs = .ok maps') : memRead maps' a bs.length = .ok bs := by
  obtain ⟨id, m, hlk, hl, rfl⟩ := memWrite_eq_ok_iff.1 hw
  have hm := (lookup_eq_some_iff.1 hlk).1
  have hlk' := lookup_putBytes_of_lookup (off := a.toNat - m.base) (bs := bs) hlk
  exact memRead_eq_ok_iff.2 ⟨id, _, hlk', hl,
    (Memory.readBytes_writeBytes (memory_wf_of_getElem? hwf hm) _ bs).symm⟩

/-- A by-identifier write that answers reads back through the same identifier (R39, R40). -/
theorem readId_of_writeId {maps maps' : List Mapping} {id : Nat} {a : Word} {bs : List Byte}
    (hwf : ∀ m ∈ maps, m.wf) (hw : writeId maps id a bs = .ok maps') : readId maps' id a bs.length = .ok bs := by
  obtain ⟨m, hm, hb, hl, rfl⟩ := writeId_eq_ok_iff.1 hw
  exact readId_eq_ok_iff.2 ⟨_, (getElem?_setRegion hm id).trans (if_pos rfl), hb, hl,
    (Memory.readBytes_writeBytes (memory_wf_of_getElem? hwf hm) _ bs).symm⟩

/-- What the host is answered to a read (R7). -/
theorem answerRead_answers (s : State) (r : Except Fault (List Byte)) :
    (∀ bs, r = .ok bs → answerRead s r = (s, .bytes bs)) ∧
    (∀ f, r = .error f → (answerRead s r).2 = .fault f) :=
  ⟨by rintro bs rfl; rfl, by rintro f rfl; rfl⟩

/-- What the host is answered to a write, and that a fault leaves the mappings (R7, R37). -/
theorem answerWrite_answers (s : State) (r : Except Fault (List Mapping)) :
    (∀ maps, r = .ok maps → answerWrite s r = ({ s with maps := maps }, .done)) ∧
    (∀ f, r = .error f → ∃ s', answerWrite s r = (s', .fault f) ∧ s'.maps = s.maps) :=
  ⟨by rintro maps rfl; rfl, by rintro f rfl; exact ⟨_, rfl, rfl⟩⟩

/-! The statements. -/

/-- Settles O27: `lookup_eq_some_iff` and `lookup_eq_none_iff`, with what it is to claim an address written out. -/
theorem lookupIsFirstInclusiveMatch : Obligations.LookupIsFirstInclusiveMatch := by
  intro maps addr
  refine ⟨fun id m => ?_, ?_, ?_⟩
  · rw [lookup_eq_some_iff, Mapping.claims_iff, Mapping.limit]
    constructor
    · rintro ⟨hm, ⟨hb, he⟩, hfirst⟩
      exact ⟨hm, hb, he, fun j m' hj hm' => Mapping.claims_eq_false_iff.1 (hfirst j hj m' hm')⟩
    · rintro ⟨hm, hb, he, hfirst⟩
      exact ⟨hm, ⟨hb, he⟩, fun j hj m' hm' => Mapping.claims_eq_false_iff.2 (hfirst j m' hj hm')⟩
  · simp only [lookup_eq_none_iff, Mapping.claims_eq_false_iff]
  · rintro a n bs rfl hnone
    exact ⟨memRead_eq_error_iff.2 (.inl ⟨hnone, rfl⟩), memWrite_eq_error_iff.2 (.inl ⟨hnone, rfl⟩)⟩

/-- Settles O28: the lookup's answer decides which region is read, and the region's length whether it answers. -/
theorem routedReadStaysInItsRegion : Obligations.RoutedReadStaysInItsRegion := by
  intro maps a n
  refine ⟨fun hnone => memRead_eq_error_iff.2 (.inl ⟨hnone, rfl⟩), fun id m hlk => ⟨fun hl => ?_, fun hl => ?_⟩, ?_⟩
  · have hm := (lookup_eq_some_iff.1 hlk).1
    exact ⟨_, memRead_eq_ok_iff.2 ⟨id, m, hlk, hl, rfl⟩, Memory.length_readBytes _ _ _,
      fun k hk => getElem?_readBytes_eq_byteAt hm hl hk⟩
  · exact memRead_eq_error_iff.2 (.inr ⟨id, m, hlk, hl, rfl⟩)
  · rintro t s ht rfl
    rw [transactWith_busRead ht]
    exact answerRead_answers s _

/-- Settles O29: a routed write puts the bytes in the one region the lookup selects. -/
theorem routedWriteReadsBack : Obligations.RoutedWriteReadsBack := by
  intro maps a bs hwf
  refine ⟨fun hnone => memWrite_eq_error_iff.2 (.inl ⟨hnone, rfl⟩), fun id m hlk => ⟨fun hl => ?_, fun hl => ?_⟩, ?_⟩
  · have hm := (lookup_eq_some_iff.1 hlk).1
    have hw := memWrite_eq_ok_iff.2 ⟨id, m, hlk, hl, rfl⟩
    exact ⟨_, hw, memRead_of_memWrite hwf hw, fun k hk => byteAt_putBytes_of_lt hwf hm hl hk,
      fun id' off h => byteAt_putBytes_of_not_written hwf hm h⟩
  · exact memWrite_eq_error_iff.2 (.inr ⟨id, m, hlk, hl, rfl⟩)
  · rintro t s ht rfl
    rw [transactWith_busWrite ht]
    exact answerWrite_answers s _

/-- Settles O30: the identifier alone selects the region; the base and the length decide whether it answers. -/
theorem accessByIdentifier : Obligations.AccessByIdentifier := by
  intro maps id a n bs hwf
  refine ⟨fun hid => ?_, fun m hm => ⟨fun h => ?_, fun h => ?_, fun hb hl => ?_, fun hb hl => ?_⟩, ?_⟩
  · exact ⟨readId_eq_error_iff.2 (.inl ⟨hid, rfl⟩), writeId_eq_error_iff.2 (.inl ⟨hid, rfl⟩)⟩
  · exact readId_eq_error_iff.2 (.inr ⟨m, hm, by omega, rfl⟩)
  · exact writeId_eq_error_iff.2 (.inr ⟨m, hm, by omega, rfl⟩)
  · exact ⟨_, readId_eq_ok_iff.2 ⟨m, hm, hb, hl, rfl⟩, Memory.length_readBytes _ _ _,
      fun k hk => getElem?_readBytes_eq_byteAt hm hl hk⟩
  · have hw := writeId_eq_ok_iff.2 ⟨m, hm, hb, hl, rfl⟩
    exact ⟨_, hw, readId_of_writeId hwf hw, fun id' off h => byteAt_putBytes_of_not_written hwf hm h⟩
  · rintro t s ht rfl
    rw [transactWith_busReadId ht, transactWith_busWriteId ht]
    obtain ⟨hread, hreadFault⟩ := answerRead_answers s (readId s.maps id a n)
    obtain ⟨hwrite, hwriteFault⟩ := answerWrite_answers s (writeId s.maps id a bs)
    exact ⟨hread, hreadFault, hwrite, hwriteFault⟩

end Sys2Proof.Machine

/-! PROOFS. Of the statements of 30_encoding.md: the lookup in a well-formed table (R62, R63) and the two field-window
decoders (R55, R56). -/

namespace Sys2Proof

/-! The lookup. -/

theorem Row.accepts_iff {r : Row} {op : Half} : r.accepts op = true ↔ op &&& r.mask = r.pattern := by
  simp [Row.accepts]

/-- Rows that differ in a bit both of them fix match no common opcode value: each pattern would have the opcode's own
bit there. -/
theorem Row.not_accepts_of_disjoint {r r' : Row} {op : Half} (hd : r.disjoint r' = true)
    (ha : r.accepts op = true) : ¬ r'.accepts op = true := by
  intro ha'
  rw [Row.accepts_iff] at ha ha'
  have hsame : (r.pattern ^^^ r'.pattern) &&& r.mask &&& r'.mask = 0 := by
    rw [← ha, ← ha']
    apply BitVec.eq_of_getLsbD_eq
    intro k _
    simp only [BitVec.getLsbD_and, BitVec.getLsbD_xor]
    cases op.getLsbD k <;> cases r.mask.getLsbD k <;> simp
  simp [Row.disjoint, hsame] at hd

theorem Table.disjoint_of_wf {t : Table} (h : t.wf = true) : Table.disjoint t = true :=
  (Bool.and_eq_true_iff.1 h).2

theorem Table.disjoint_cons_iff {r : Row} {t : Table} :
    Table.disjoint (r :: t) = true ↔ (∀ r' ∈ t, r.disjoint r' = true) ∧ Table.disjoint t = true := by
  simp [Table.disjoint]

/-- The place of a matching row does not matter: the rows before it do not match (R63). -/
theorem lookupDesc_of_accepts {t : Table} {op : Half} {r : Row} (ht : Table.disjoint t = true) (hr : r ∈ t)
    (ha : r.accepts op = true) : lookupDesc t op = some r.desc := by
  induction t with
  | nil => cases hr
  | cons r₀ t ih =>
    obtain ⟨hfirst, hrest⟩ := Table.disjoint_cons_iff.1 ht
    rcases List.mem_cons.1 hr with rfl | hmem
    · simp [lookupDesc, ha]
    · have hna : ¬ r₀.accepts op = true := fun h₀ => Row.not_accepts_of_disjoint (hfirst r hmem) h₀ ha
      calc lookupDesc (r₀ :: t) op = lookupDesc t op := by simp [lookupDesc, hna]
        _ = some r.desc := ih hrest hmem

/-- An opcode is invalid where no row matches it, in every table (R63, R70). -/
theorem lookupDesc_eq_none_iff {t : Table} {op : Half} :
    lookupDesc t op = none ↔ ∀ r ∈ t, ¬ r.accepts op = true := by
  simp [lookupDesc]

/-! The field windows. -/

theorem getLsbD_field3 {op : Half} {hi k : Nat} (hk : k < 3) :
    (field3 op hi).getLsbD k = op.getLsbD (hi - 2 + k) := by
  simp [field3, hk]

/-- The two layouts exchange the sub-fields of one window (R56). -/
theorem decodeMR_eq_swap_decodeRM (op : Half) (b : Nat) : decodeMR op b = (decodeRM op b).swap := rfl

/-- The mode is the low sub-field and the register the high one (R55). -/
theorem getLsbD_decodeRM {op : Half} {b k : Nat} (hk : k < 3) :
    (decodeRM op b).1.getLsbD k = op.getLsbD (b - 5 + k) ∧
    (decodeRM op b).2.getLsbD k = op.getLsbD (b - 2 + k) :=
  ⟨by rw [decodeRM, getLsbD_field3 hk, Nat.sub_sub], getLsbD_field3 hk⟩

namespace Machine

/-- A step of a ready CPU over a well-formed table ends in the fault its fetch raises. -/
theorem stepWith_of_fetch_error {t : Table} {s : State} {f : Fault} (ht : t.wf = true) (hr : s.ready = true)
    (hf : fetch t s.maps s.pc = .error f) : stepWith t s = .fault f := by
  simp [stepWith, ht, hr, hf]

/-- Settles O6: two rows of a well-formed table match no common opcode value, so the lookup's order shows nothing;
where it finds no row, stage 2 raises. -/
theorem lookupGivesTheMatchingRow : Obligations.LookupGivesTheMatchingRow := by
  intro t op hwf
  refine ⟨fun r hr hm => lookupDesc_of_accepts (Table.disjoint_of_wf hwf) hr (Row.accepts_iff.2 hm), fun hno => ?_⟩
  have hnone : lookupDesc t op = none :=
    lookupDesc_eq_none_iff.2 fun r hr ha => hno r hr (Row.accepts_iff.1 ha)
  refine ⟨hnone, fun s hready hread => stepWith_of_fetch_error hwf hready ?_⟩
  exact fetch_eq_error_iff.2 (.inr (.inl ⟨_, hread, by rwa [be16_bytesBE16], by rw [be16_bytesBE16]⟩))

/-- Settles O8: the bits of `decodeRM`, and `decodeMR` as its swap. -/
theorem windowsSelectModeAndRegister : Obligations.WindowsSelectModeAndRegister := by
  refine ⟨fun op b k _ _ hk => ?_, by decide, by decide⟩
  obtain ⟨hlow, hhigh⟩ := getLsbD_decodeRM (op := op) (b := b) hk
  rw [decodeMR_eq_swap_decodeRM]
  exact ⟨hlow, hhigh, hhigh, hlow⟩

end Machine

end Sys2Proof

/-! PROOFS. Of the statements of 40_dispatch.md: the order of a step's faults (R75 to R77), the frame of a completed
step (R80, R82), and the disassembler's length, text and silence (R84 to R88). -/

namespace Sys2Proof.Machine

/-! A routed access against the end of its region. -/

section routed

variable {maps : List Mapping} {a : Word} {id n : Nat} {m : Mapping}
  (hlk : lookup maps a.toNat = some (id, m))
include hlk

theorem base_le_of_lookup : m.base ≤ a.toNat :=
  (Mapping.claims_iff.1 (lookup_eq_some_iff.1 hlk).2.1).1

theorem memRead_of_limit_lt (h : m.base + m.region.len < a.toNat + n) :
    memRead maps a n = .error (.regionOutOfRange a n) := by
  have := base_le_of_lookup hlk
  exact memRead_eq_error_iff.2 (.inr ⟨id, m, hlk, by omega, rfl⟩)

theorem memRead_of_le_limit (h : a.toNat + n ≤ m.base + m.region.len) : ∃ bs, memRead maps a n = .ok bs := by
  have := base_le_of_lookup hlk
  exact ⟨_, memRead_eq_ok_iff.2 ⟨id, m, hlk, by omega, rfl⟩⟩

end routed

theorem memRead_of_lookup_none {maps : List Mapping} {a : Word} {n : Nat} (h : lookup maps a.toNat = none) :
    memRead maps a n = .error (.regionNotFound a) :=
  memRead_eq_error_iff.2 (.inl ⟨h, rfl⟩)

/-! The operand fetch and the step over the default table. -/

theorem fetchOperand_zero (maps : List Mapping) (a : Word) : fetchOperand maps a 0 = .ok [] := rfl

theorem fetchOperand_of_ne_zero {n : Nat} (h : n ≠ 0) (maps : List Mapping) (a : Word) :
    fetchOperand maps a n = memRead maps (a + 2) n := if_neg h

/-- A step of a ready CPU whose fetch raises nothing completes: every row of the default table resolves (R60). -/
theorem step_completes_of_fetch_ok {s : State} {r : Descriptor × Half × List Byte} (hr : s.ready = true)
    (hf : fetch defaultTable s.maps s.pc = .ok r) : ∃ t, step s = .next t := by
  cases hi : s.fetchInstr with
  | error f =>
    rw [State.fetchInstr_eq_error_iff, hf] at hi
    cases hi
  | ok i =>
    obtain ⟨kind, src, x, he⟩ := exec_eq_finish i s
    exact ⟨_, (step_of_fetchInstr hr hi).trans he⟩

section stages

variable {s : State} (hr : s.ready = true)
include hr

/-- Stage 1 (R75). -/
theorem step_of_opcode_fetch_error {f : Fault} (h : memRead s.maps s.pc 2 = .error f) : step s = .fault f :=
  step_eq_fault_iff.2 ⟨hr, fetch_eq_error_iff.2 (.inl h)⟩

variable {ob : List Byte} (hob : memRead s.maps s.pc 2 = .ok ob)
include hob

/-- Stage 2 (R76). -/
theorem step_of_lookupDesc_none (h : lookupDesc defaultTable (be16 ob) = none) :
    step s = .fault (.invalidOpcode s.pc (be16 ob)) :=
  step_eq_fault_iff.2 ⟨hr, fetch_eq_error_iff.2 (.inr (.inl ⟨ob, hob, h, rfl⟩))⟩

variable {d : Descriptor} (hd : lookupDesc defaultTable (be16 ob) = some d)
include hd

/-- Stage 3 raises (R77). -/
theorem step_of_operand_fetch_error {f : Fault} (h : fetchOperand s.maps s.pc d.operandBytes = .error f) :
    step s = .fault f :=
  step_eq_fault_iff.2 ⟨hr, fetch_eq_error_iff.2 (.inr (.inr ⟨ob, d, hob, hd, h⟩))⟩

/-- Stage 3 answers (R77). -/
theorem step_of_operand_fetch_ok {opnd : List Byte} (h : fetchOperand s.maps s.pc d.operandBytes = .ok opnd) :
    ∃ t, step s = .next t :=
  step_completes_of_fetch_ok hr (fetch_eq_ok_iff.2 ⟨ob, hob, rfl, hd, h⟩)

end stages

/-- Settles O16: one lemma a stage, and for both fetches the routed read against the end of its region. -/
theorem stepFaultsInStageOrder : Obligations.StepFaultsInStageOrder := by
  intro s hr
  refine ⟨fun hnone => step_of_opcode_fetch_error hr (memRead_of_lookup_none hnone),
    fun id m hlk hlt => step_of_opcode_fetch_error hr (memRead_of_limit_lt hlk hlt), fun ob hob =>
    ⟨step_of_lookupDesc_none hr hob, fun d hd => ⟨fun hzero => ?_, fun hne => ?_⟩⟩⟩
  · exact step_of_operand_fetch_ok hr hob hd (by rw [hzero, fetchOperand_zero])
  · have hfetch := fetchOperand_of_ne_zero hne s.maps s.pc
    refine ⟨fun hnone => ?_, fun id m hlk => ⟨fun hlt => ?_, fun hle => ?_⟩⟩
    · exact step_of_operand_fetch_error hr hob hd (hfetch.trans (memRead_of_lookup_none hnone))
    · exact step_of_operand_fetch_error hr hob hd (hfetch.trans (memRead_of_limit_lt hlk hlt))
    · obtain ⟨opnd, ho⟩ := memRead_of_le_limit hlk hle
      exact step_of_operand_fetch_ok hr hob hd (hfetch.trans ho)

/-- Settles O18: the completed step is a finish (`stepWith_eq_next`), whose frame is `State.finish_frame`. -/
theorem completedStepFrame : Obligations.CompletedStepFrame := by
  intro t s s' h
  obtain ⟨_, d, op, opnd, src, hf, _, rfl⟩ := stepWith_eq_next h
  obtain ⟨ob, hob, rfl, hd, _⟩ := fetch_eq_ok_iff.1 hf
  exact ⟨ob, d, hob, hd, s.finish_frame _ _ _ _⟩

/-! The disassembler. -/

/-- What the disassembler answers: the text and the length of the fetched row (R84, R86). -/
theorem disassemble_eq_ok_iff {t : Table} {maps : List Mapping} {a : Word} {text : String} {n : Nat} :
    disassemble t maps a = .ok (text, n) ↔
      ∃ d op opnd, fetch t maps a = .ok (d, op, opnd) ∧ text = render d op opnd ∧ n = 2 + d.operandBytes := by
  unfold disassemble
  split
  · next f hf => simp [hf]
  · next d op opnd hf => simp [hf, eq_comm]

/-- The disassembler raises what stages 1 to 3 raise (R84, R85). -/
theorem disassemble_eq_error_iff {t : Table} {maps : List Mapping} {a : Word} {f : Fault} :
    disassemble t maps a = .error f ↔ fetch t maps a = .error f := by
  unfold disassemble
  split
  · next g hg => simp [hg]
  · next d op opnd hf => simp [hf]

/-- What the host is answered to a disassembly (R7, R84). -/
theorem answerText_of_ok {s : State} {r : Except Fault (String × Nat)} {text : String} {n : Nat}
    (h : r = .ok (text, n)) : answerText s r = (s, .text text n) := by rw [h]; rfl

theorem answerText_of_error {s : State} {r : Except Fault (String × Nat)} {f : Fault} (h : r = .error f) :
    answerText s r = (s.raise f, .fault f) := by rw [h]; rfl

/-- Settles O23: the disassembly and a step at its address share stages 1 to 3, so both take the length of one row. -/
theorem disassembledLengthIsStepAdvance : Obligations.DisassembledLengthIsStepAdvance := by
  intro t s a text n hdis
  obtain ⟨d, op, opnd, hf, _, rfl⟩ := disassemble_eq_ok_iff.1 hdis
  refine ⟨?_, ?_, fun ht => ?_⟩
  · obtain ⟨ob, hob, rfl, hd, _⟩ := fetch_eq_ok_iff.1 hf
    exact ⟨ob, d, hob, hd, rfl⟩
  · rintro s' rfl hstep
    obtain ⟨_, d', op', opnd', src, hf', _, rfl⟩ := stepWith_eq_next hstep
    rw [hf] at hf'
    cases hf'
    rfl
  · rw [transactWith_disassemble ht]
    exact answerText_of_ok hdis

/-- A disassembly, refused or not, leaves the state as it was or raises a fault in it. -/
theorem transactWith_disassemble_state (t : Table) (s : State) (a : Word) :
    (transactWith t s (.disassemble a)).1 = s ∨ ∃ f, (transactWith t s (.disassemble a)).1 = s.raise f := by
  by_cases ht : t.wf = true
  · rw [transactWith_disassemble ht]
    rcases answerText_cases s (disassemble t s.maps a) with hq | ⟨f, hf⟩
    · exact .inl hq.1
    · exact .inr ⟨f, by rw [hf]⟩
  · exact .inl (by rw [transactWith, if_neg ht])

/-- Settles O25: a raise writes nothing the statement names, and an unknown opcode raises in stage 2. -/
theorem disassemblyWritesNothing : Obligations.DisassemblyWritesNothing := by
  intro t s s' a r h
  refine ⟨?_, fun ob ht hob hnone => ?_⟩
  · rcases transactWith_disassemble_state t s a with hs | ⟨f, hs⟩
    all_goals
      rw [h] at hs
      subst hs
      exact ⟨rfl, rfl, rfl, rfl, rfl⟩
  · have hf : fetch t s.maps a = .error (.invalidOpcode a (be16 ob)) :=
      fetch_eq_error_iff.2 (.inr (.inl ⟨ob, hob, hnone, rfl⟩))
    rw [transactWith_disassemble ht, answerText_of_error (disassemble_eq_error_iff.2 hf)] at h
    exact (Prod.mk.inj h).2.symm

/-! The text of the default table's instructions (R87, R88). -/

theorem renderOperand_dataReg : ∀ r : Reg, renderOperand 0b000 (regField r) = dataRegisterName r := by decide

theorem renderOperand_addrReg : ∀ r : Reg, renderOperand 0b001 (regField r) = addressRegisterName r := by decide

/-- The bits `4 * k` to `4 * k + 3` of a value are its hexadecimal digit of weight `16 ^ k`. -/
theorem hexDigit_extractLsb' (v : Word) (k : Nat) : hexDigit (v.extractLsb' (4 * k) 4) = upperHexDigit v.toNat k := by
  have hpow : 2 ^ (4 * k) = 16 ^ k := Nat.pow_mul 2 4 k
  rw [hexDigit, upperHexDigit, BitVec.extractLsb'_toNat, Nat.shiftRight_eq_div_pow, hpow]

theorem hex8_eq_upperHex (v : Word) : hex8 v = upperHex v.toNat := by
  simp only [upperHex, ← hexDigit_extractLsb']
  rfl

section text

variable {op : Half} {x : Reg} (hx : field3 op 11 = regField x) (L : Nat) (kind : OpKind) (mnemonic : String)
include hx

/-- A row of the default table that leaves its source to the operand renderer (R87). -/
theorem render_operand {mode reg : BitVec 3} {source : String} (hw : decodeMR op 5 = (mode, reg))
    (hs : renderOperand mode reg = source) (opnd : List Byte) :
    render (defaultDescriptor L kind mnemonic .operand) op opnd =
      mnemonic ++ " " ++ source ++ "," ++ dataRegisterName x := by
  rw [← hs, ← renderOperand_dataReg x, ← hx]
  simp [render, defaultDescriptor, SrcKind.window, decodeWindow, hw, DstKind.reg, regOf, regField]

/-- A row of the default table that shows an immediate itself (R87). -/
theorem render_immediate (imm : Word) :
    render (defaultDescriptor L kind mnemonic .immediate) op (bytesBE32 imm) =
      mnemonic ++ " " ++ "#$" ++ upperHex imm.toNat ++ "," ++ dataRegisterName x := by
  rw [← renderOperand_dataReg x, ← hx, ← hex8_eq_upperHex]
  simp only [render, defaultDescriptor, be32_bytesBE32, ← String.append_assoc]
  rfl

end text

/-- The default table matches the opcode word of every instruction, with a descriptor whose text is R87's. -/
theorem lookup_opcode_render (i : Instr) :
    ∃ d, lookupDesc defaultTable i.opcode = some d ∧ d.operandBytes = i.operand.length ∧
      render d i.opcode i.operand = instructionText i := by
  cases i with
  | moveDyDx y x =>
    exact ⟨_, (lookup_register_opcode y x).1, rfl,
      render_operand (field3_moveOpcode ..) _ _ _ (decodeMR_moveOpcode ..) (renderOperand_dataReg y) _⟩
  | moveAyDx y x =>
    exact ⟨_, (lookup_register_opcode y x).2.1, rfl,
      render_operand (field3_moveOpcode ..) _ _ _ (decodeMR_moveOpcode ..) (renderOperand_addrReg y) _⟩
  | moveImmDx imm x =>
    exact ⟨_, (lookup_immediate_opcode x).1, rfl, render_immediate (field3_moveOpcode ..) _ _ _ imm⟩
  | addDyDx y x =>
    exact ⟨_, (lookup_register_opcode y x).2.2.1, rfl,
      render_operand (field3_addOpcode ..) _ _ _ (decodeMR_addOpcode ..) (renderOperand_dataReg y) _⟩
  | addAyDx y x =>
    exact ⟨_, (lookup_register_opcode y x).2.2.2, rfl,
      render_operand (field3_addOpcode ..) _ _ _ (decodeMR_addOpcode ..) (renderOperand_addrReg y) _⟩
  | addImmDx imm x =>
    exact ⟨_, (lookup_immediate_opcode x).2, rfl, render_immediate (field3_addOpcode ..) _ _ _ imm⟩

/-- The operand fetch after an instruction's opcode word, where its operand bytes stand (R66, R77). -/
theorem fetchOperand_of_operand {maps : List Mapping} {a : Word} {i : Instr}
    (h : i.operand ≠ [] → memRead maps (a + 2) 4 = .ok i.operand) :
    fetchOperand maps a i.operand.length = .ok i.operand := by
  rcases i.length_operand with hl | hl
  · rw [hl, fetchOperand_zero, List.eq_nil_of_length_eq_zero hl]
  · have hne : i.operand ≠ [] := List.ne_nil_of_length_pos (by omega)
    rw [hl, fetchOperand_of_ne_zero (by decide), h hne]

theorem wf_defaultTable : defaultTable.wf = true := by decide

/-- Settles O26: the matched row's text, by `lookup_opcode_render`, over the bytes stages 1 to 3 fetch. -/
theorem disassembledTextOfEveryInstruction : Obligations.DisassembledTextOfEveryInstruction := by
  intro maps a i hopcode hoperand
  obtain ⟨d, hd, hl, htext⟩ := lookup_opcode_render i
  have hf : fetch defaultTable maps a = .ok (d, i.opcode, i.operand) :=
    fetch_eq_ok_iff.2 ⟨_, hopcode, (be16_bytesBE16 _).symm, hd, by rw [hl]; exact fetchOperand_of_operand hoperand⟩
  have hdis : disassemble defaultTable maps a = .ok (instructionText i, 2 + i.operand.length) :=
    disassemble_eq_ok_iff.2 ⟨d, _, _, hf, htext.symm, by rw [hl]⟩
  refine ⟨hdis, ?_⟩
  rintro s rfl
  rw [transactWith_disassemble wf_defaultTable]
  exact answerText_of_ok hdis

end Sys2Proof.Machine

/-! PROOFS. Of the statements of 41_move.md: the effect of the move-class instructions (R89) and a step at each MOVE
row's word (R90 to R92), with the bus faults that end one (R100, R101). -/

namespace Sys2Proof.Machine

/-! The move class. -/

/-- The finish of a move has the effect R89 lists, whatever the source value. -/
theorem State.finish_moveEffect (s : State) (v : Word) (x : Reg) (len : Nat) :
    MoveEffect s (s.finish .move v x len) v x len where
  result := by simp [execute]
  extend := getFlag_moveFlags v s.sr .x
  negative := by simp [execute, getFlag_moveFlags, BitVec.msb_eq_toInt]
  zero := by simp [execute, getFlag_moveFlags, BitVec.toNat_eq]
  overflow := getFlag_moveFlags v s.sr .v
  carry := getFlag_moveFlags v s.sr .c
  frame := s.finish_frame .move v x len

/-- Settles O9: each move-class instruction is the finish of a move with its own source value. -/
theorem moveInstructionsComplete : Obligations.MoveInstructionsComplete := by
  intro s y x imm
  exact ⟨⟨_, rfl, s.finish_moveEffect (s.readD y) x 2⟩, ⟨_, rfl, s.finish_moveEffect (s.readA y) x 2⟩,
    ⟨_, rfl, s.finish_moveEffect imm x 6⟩⟩

/-! The bits of the MOVE rows' words. -/

theorem moveDyDx_opcode_bits : ∀ y x : BitVec 3,
    0b0010#4 ++ x ++ 0b000000#6 ++ y = (Instr.moveDyDx y.toFin x.toFin).opcode := by decide

theorem moveAyDx_opcode_bits : ∀ y x : BitVec 3,
    0b0010#4 ++ x ++ 0b000001#6 ++ y = (Instr.moveAyDx y.toFin x.toFin).opcode := by decide

theorem moveImmDx_opcode_bits (imm : Word) : ∀ x : BitVec 3,
    0b0010#4 ++ x ++ 0b000111100#9 = (Instr.moveImmDx imm x.toFin).opcode := by
  change ∀ x : BitVec 3, 0b0010#4 ++ x ++ 0b000111100#9 = moveOpcode x.toFin 0b111 0b100
  decide

/-! A step at an instruction's opcode word. -/

/-- The two faults a routed read can raise, both bus faults (R35, R36, R97). -/
theorem memRead_error_cases {maps : List Mapping} {a : Word} {n : Nat} {f : Fault} (h : memRead maps a n = .error f) :
    f = .regionNotFound a ∨ f = .regionOutOfRange a n := by
  obtain ⟨_, rfl⟩ | ⟨_, _, _, _, rfl⟩ := memRead_eq_error_iff.1 h
  · exact .inl rfl
  · exact .inr rfl

/-- After a bus fault the CPU is not ready, and nothing else has changed (R100, R101). -/
theorem State.raise_of_isBus {f : Fault} (h : f.isBus = true) (s : State) : s.raise f = { s with ready := false } := by
  simp [State.raise, h]

/-- A routed read whose fault is a step's own: which fault it is, and what the transaction `Step` leaves. -/
theorem step_busFault {s : State} {a : Word} {n : Nat} {f : Fault} (hread : memRead s.maps a n = .error f)
    (hstep : step s = .fault f) :
    (f = .regionNotFound a ∨ f = .regionOutOfRange a n) ∧ step s = .fault f ∧
      transactWith defaultTable s .step = ({ s with ready := false }, .fault f) := by
  have hcases := memRead_error_cases hread
  have hbus : f.isBus = true := by rcases hcases with rfl | rfl <;> rfl
  obtain ⟨hr, hf⟩ := step_eq_fault_iff.1 hstep
  refine ⟨hcases, hstep, ?_⟩
  rw [transactWith_step wf_defaultTable, stepWith_of_fetch_error wf_defaultTable hr hf, answerStep,
    State.raise_of_isBus hbus]

section opcode

variable {s : State} (hr : s.ready = true) {i : Instr} (hop : memRead s.maps s.pc 2 = .ok (bytesBE16 i.opcode))
include hr hop

/-- A step at an instruction's opcode word, with its operand bytes right after it, runs the instruction (R73). -/
theorem step_of_opcode (ho : i.operand ≠ [] → memRead s.maps (s.pc + 2) 4 = .ok i.operand) : step s = exec i s :=
  step_of_fetchInstr hr (State.fetchInstr_eq_ok_iff.2 ⟨hop, fetchOperand_of_operand ho⟩)

/-- A step at the opcode word of an instruction with an immediate ends in its operand fetch's fault (R77). -/
theorem step_of_immediate_fetch_error (hl : i.operand.length = 4) {f : Fault}
    (h : memRead s.maps (s.pc + 2) 4 = .error f) : step s = .fault f := by
  obtain ⟨d, hd, hn, _⟩ := lookup_opcode i
  have hfetch : fetchOperand s.maps s.pc d.operandBytes = .error f := by
    rw [hn, hl, fetchOperand_of_ne_zero (by decide), h]
  exact step_of_operand_fetch_error hr hop (by rwa [be16_bytesBE16]) hfetch

end opcode

/-- Settles O14: each row's word is the opcode word of its instruction, which runs (`step_of_opcode`) or whose operand
fetch raises (`step_of_immediate_fetch_error`); at the end of a region the operand's four bytes cannot be read. -/
theorem stepRunsMoveRows : Obligations.StepRunsMoveRows := by
  intro s y x hr
  refine ⟨fun hop => ?dataReg, fun hop => ?addrReg, fun hop => ?immediate, fun f hread => ?opcodeFetch⟩
  case dataReg =>
    rw [moveDyDx_opcode_bits] at hop
    exact ⟨_, step_of_opcode hr hop (absurd rfl), s.finish_moveEffect _ _ _⟩
  case addrReg =>
    rw [moveAyDx_opcode_bits] at hop
    exact ⟨_, step_of_opcode hr hop (absurd rfl), s.finish_moveEffect _ _ _⟩
  case immediate =>
    have hfault {f : Fault} (hread : memRead s.maps (s.pc + 2) 4 = .error f) : step s = .fault f :=
      step_of_immediate_fetch_error hr (by rwa [moveImmDx_opcode_bits 0] at hop) rfl hread
    refine ⟨fun b0 b1 b2 b3 hread => ?_, fun f hread => step_busFault hread (hfault hread),
      fun id m hlk hend => hfault (memRead_of_limit_lt hlk (by omega))⟩
    rw [moveImmDx_opcode_bits (be32 [b0, b1, b2, b3])] at hop
    rw [← bytesBE32_be32] at hread
    exact ⟨_, step_of_opcode hr hop fun _ => hread, s.finish_moveEffect _ _ _⟩
  case opcodeFetch => exact step_busFault hread (step_of_opcode_fetch_error hr hread)

end Sys2Proof.Machine

/-! PROOFS. Of the statements of 42_add.md: the effect of the add-class instructions (R93) and a step at each ADD row's
word (R94 to R96), with the bus faults that end one (R100, R101). -/

namespace Sys2Proof.Machine

/-! The add class's flag formulas: what they say of the two addends' sum. -/

/-- The majority formula of R93 is the carry out of bit 31: the result's sign bit stands for the carry into it. -/
theorem addCarry_add_eq_carry (src dst : Word) : addCarry src dst (src + dst) = BitVec.carry 32 src dst false := by
  have hsum : (src + dst).msb = (src.msb ^^ (dst.msb ^^ BitVec.carry 31 src dst false)) := BitVec.msb_add
  have hcarry : BitVec.carry 32 src dst false = src.msb.atLeastTwo dst.msb (BitVec.carry 31 src dst false) := by
    rw [BitVec.carry_succ, ← BitVec.msb_eq_getLsbD_last, ← BitVec.msb_eq_getLsbD_last]
  rw [hcarry]
  simp only [addCarry, BitVec.msb_or, BitVec.msb_and, BitVec.msb_not, hsum]
  cases src.msb <;> cases dst.msb <;> simp

/-- Carry and extend of an add: the unsigned sum is at least `2 ^ 32` (R93). -/
theorem addCarry_add_iff (src dst : Word) :
    addCarry src dst (src + dst) = true ↔ 2 ^ 32 ≤ src.toNat + dst.toNat := by
  simp [addCarry_add_eq_carry, BitVec.carry_width]

/-- The overflow formula of R93 is the library's signed overflow: the addends' signs agree, the result's differs. -/
theorem addOverflow_add_eq_saddOverflow (src dst : Word) :
    addOverflow src dst (src + dst) = src.saddOverflow dst := by
  rw [BitVec.saddOverflow_eq]
  simp only [addOverflow, BitVec.msb_or, BitVec.msb_and, BitVec.msb_not]
  cases src.msb <;> cases dst.msb <;> simp

/-- Overflow of an add: the signed sum lies outside the 32-bit range (R93). -/
theorem addOverflow_add_iff (src dst : Word) :
    addOverflow src dst (src + dst) = true ↔
      src.toInt + dst.toInt < -2 ^ 31 ∨ 2 ^ 31 ≤ src.toInt + dst.toInt := by
  simp [addOverflow_add_eq_saddOverflow, BitVec.saddOverflow, or_comm]

/-! The add class. -/

@[simp] theorem execute_add (src dst : Word) (sr : Half) :
    execute .add src dst sr = (src + dst, addFlags src dst (src + dst) sr) := rfl

/-- The finish of an add has the effect R93 lists, whatever the source value. -/
theorem State.finish_addEffect (s : State) (v : Word) (x : Reg) (len : Nat) :
    AddEffect s (s.finish .add v x len) v x len where
  result := by simp
  extend := by simp [getFlag_addFlags, addCarry_add_iff]
  carry := by simp [getFlag_addFlags, addCarry_add_iff]
  overflow := by simp [getFlag_addFlags, addOverflow_add_iff]
  carryFormula := by simp [getFlag_addFlags, addCarry, BitVec.msb_eq_getLsbD_last]
  overflowFormula := by simp [getFlag_addFlags, addOverflow, BitVec.msb_eq_getLsbD_last]
  negative := by simp [getFlag_addFlags, BitVec.msb_eq_toInt]
  zero := by simp [getFlag_addFlags, BitVec.toNat_eq]
  frame := s.finish_frame .add v x len

/-- Settles O10: each add-class instruction is the finish of an add with its own source value. -/
theorem addInstructionsComplete : Obligations.AddInstructionsComplete := by
  intro s y x imm
  exact ⟨⟨_, rfl, s.finish_addEffect (s.readD y) x 2⟩, ⟨_, rfl, s.finish_addEffect (s.readA y) x 2⟩,
    ⟨_, rfl, s.finish_addEffect imm x 6⟩⟩

/-! The bits of the ADD rows' words. -/

theorem addDyDx_opcode_bits : ∀ y x : BitVec 3,
    0b1101#4 ++ x ++ 0b010000#6 ++ y = (Instr.addDyDx y.toFin x.toFin).opcode := by decide

theorem addAyDx_opcode_bits : ∀ y x : BitVec 3,
    0b1101#4 ++ x ++ 0b010001#6 ++ y = (Instr.addAyDx y.toFin x.toFin).opcode := by decide

theorem addImmDx_opcode_bits (imm : Word) : ∀ x : BitVec 3,
    0b1101#4 ++ x ++ 0b010111100#9 = (Instr.addImmDx imm x.toFin).opcode := by
  change ∀ x : BitVec 3, 0b1101#4 ++ x ++ 0b010111100#9 = addOpcode x.toFin 0b111 0b100
  decide

/-! A step at the opcode word of an instruction with an immediate. -/

/-- The instruction runs with the four operand bytes read big-endian (R66, R73). -/
theorem step_of_immediate_bytes {s : State} {i : Instr} {b0 b1 b2 b3 : Byte} (hr : s.ready = true)
    (hop : memRead s.maps s.pc 2 = .ok (bytesBE16 i.opcode)) (hi : i.operand = bytesBE32 (b0 ++ b1 ++ b2 ++ b3))
    (hread : memRead s.maps (s.pc + 2) 4 = .ok [b0, b1, b2, b3]) : step s = exec i s := by
  have hbytes : bytesBE32 (b0 ++ b1 ++ b2 ++ b3) = [b0, b1, b2, b3] := bytesBE32_be32 b0 b1 b2 b3
  exact step_of_opcode hr hop fun _ => by rw [hread, hi, hbytes]

section immediate

variable {s : State} {i : Instr} (hr : s.ready = true) (hop : memRead s.maps s.pc 2 = .ok (bytesBE16 i.opcode))
  (hl : i.operand.length = 4)
include hr hop hl

/-- The operand fetch's fault ends the step, whichever bus fault it is (R77, R101). -/
theorem step_immediate_busFault {f : Fault} (hread : memRead s.maps (s.pc + 2) 4 = .error f) :
    (f = .regionNotFound (s.pc + 2) ∨ f = .regionOutOfRange (s.pc + 2) 4) ∧ step s = .fault f ∧
      transactWith defaultTable s .step = ({ s with ready := false }, .fault f) :=
  step_busFault hread (step_of_immediate_fetch_error hr hop hl hread)

/-- An operand whose place is routed to the end of a region cannot be read (R35, R36). -/
theorem step_immediate_at_limit {id : Nat} {m : Mapping} (hlk : lookup s.maps (s.pc + 2).toNat = some (id, m))
    (hend : (s.pc + 2).toNat = m.base + m.region.len) : step s = .fault (.regionOutOfRange (s.pc + 2) 4) :=
  step_of_immediate_fetch_error hr hop hl (memRead_of_limit_lt hlk (by omega))

end immediate

/-- Settles O15: each row's word is the opcode word of its instruction, which runs to the finish of an add, or ends in
the fault of one of its fetches. -/
theorem stepRunsAddRows : Obligations.StepRunsAddRows := by
  intro s y x hr
  refine ⟨fun hop => ?dataReg, fun hop => ?addrReg, fun hop => ?immediate,
    fun f hread => step_busFault hread (step_of_opcode_fetch_error hr hread)⟩
  case dataReg =>
    rw [addDyDx_opcode_bits] at hop
    exact ⟨_, step_of_opcode hr hop (absurd rfl), s.finish_addEffect _ _ _⟩
  case addrReg =>
    rw [addAyDx_opcode_bits] at hop
    exact ⟨_, step_of_opcode hr hop (absurd rfl), s.finish_addEffect _ _ _⟩
  case immediate =>
    have hop' (imm : Word) : memRead s.maps s.pc 2 = .ok (bytesBE16 (Instr.addImmDx imm x.toFin).opcode) := by
      rwa [addImmDx_opcode_bits imm] at hop
    exact ⟨fun b0 b1 b2 b3 hread => ⟨_, step_of_immediate_bytes hr (hop' _) rfl hread, s.finish_addEffect _ _ _⟩,
      fun f hread => step_immediate_busFault hr (hop' 0) rfl hread,
      fun id m hlk hend => step_immediate_at_limit hr (hop' 0) rfl hlk hend⟩

end Sys2Proof.Machine

/-! PROOFS. Of the statements of 30_encoding.md: the decoder and the encoder as inverses (R53, R54, R65 to R69), the
default table's opcode words (R67, R70), and which tables are well formed (R57, R62, R64). -/

namespace Sys2Proof

/-! The decoder and the encoder. -/

/-- An instruction that has operand bytes has four (R66). -/
theorem Instr.length_operand_of_ne_nil {i : Instr} (h : i.operand ≠ []) : i.operand.length = 4 :=
  i.length_operand.resolve_left (mt List.eq_nil_of_length_eq_zero h)

/-- At an opcode word the table matches, with its operand bytes after it, the decoder answers the instruction the
descriptor stands for and leaves the bytes after those (R53, R54, R63). -/
theorem decode_of_lookup {op : Half} {d : Descriptor} {opnd : List Byte} {i : Instr}
    (hd : lookupDesc defaultTable op = some d) (hl : opnd.length = d.operandBytes)
    (hi : Instr.ofDescriptor d op opnd = some i) (rest : List Byte) :
    decode (bytesBE16 op ++ opnd ++ rest) = .ok (i, rest) := by
  have hop : be16 [op.extractLsb' 8 8, op.extractLsb' 0 8] = op := be16_bytesBE16 op
  simp [bytesBE16, decode, hop, hd, ← hl, hi]

/-- What the decoder answers: the bytes are an opcode word that the table matches, its operand bytes, and the rest. -/
theorem decode_ok_cases {bs : List Byte} {i : Instr} {rest : List Byte} (h : decode bs = .ok (i, rest)) :
    ∃ op d opnd, lookupDesc defaultTable op = some d ∧ opnd.length = d.operandBytes ∧
      Instr.ofDescriptor d op opnd = some i ∧ bs = bytesBE16 op ++ opnd ++ rest := by
  unfold decode at h
  split at h
  · next b0 b1 tail =>
    split at h
    · cases h
    · next d hd =>
      split at h
      · cases h
      · next hlen =>
        split at h
        · cases h
        · next i' hi =>
          cases h
          refine ⟨be16 [b0, b1], d, tail.take d.operandBytes, hd, ?_, hi, ?_⟩
          · rw [List.length_take]
            omega
          · rw [bytesBE16_be16, List.append_assoc, List.take_append_drop]
            rfl
  · cases h

/-- The decoder answers an instruction exactly at its encoding (R53, R54, R65 to R69). -/
theorem decode_eq_ok_iff {bs : List Byte} {i : Instr} {rest : List Byte} :
    decode bs = .ok (i, rest) ↔ bs = encode i ++ rest := by
  constructor
  · intro h
    obtain ⟨op, d, opnd, hd, hl, hi, rfl⟩ := decode_ok_cases h
    obtain ⟨i', hi', rfl, rfl⟩ := opcode_of_lookup hd opnd hl
    rw [hi] at hi'
    cases hi'
    rfl
  · rintro rfl
    obtain ⟨d, hd, hl, hi⟩ := lookup_opcode i
    exact decode_of_lookup hd hl.symm hi rest

/-- Settles O1: the encoding is an opcode word the table matches and its operand bytes (`lookup_opcode`). -/
theorem decodeOfEncodeIsInstruction : Obligations.DecodeOfEncodeIsInstruction :=
  fun _ _ => decode_eq_ok_iff.2 rfl

/-- Settles O2: an opcode word the table matches is that of the instruction decoded (`opcode_of_lookup`). -/
theorem decodedBytesAreEncoding : Obligations.DecodedBytesAreEncoding :=
  fun _ _ _ => decode_eq_ok_iff.1

/-- Settles O4: `opcode_of_lookup`, at operand bytes of the row's length, and `lookup_opcode`. -/
theorem validOpcodesAreTheInstructions : Obligations.ValidOpcodesAreTheInstructions := by
  intro op
  constructor
  · rintro ⟨d, hd⟩
    obtain ⟨i, _, hop, _⟩ := opcode_of_lookup hd (List.replicate d.operandBytes 0) List.length_replicate
    exact ⟨i, hop⟩
  · rintro ⟨i, rfl⟩
    obtain ⟨d, hd, _⟩ := lookup_opcode i
    exact ⟨d, hd⟩

/-- Settles O3: the legal words are encodings, and no row matches the illegal ones. -/
theorem wordsOfTheTableDecode : Obligations.WordsOfTheTableDecode :=
  ⟨decode_eq_ok_iff.2 rfl, decode_eq_ok_iff.2 rfl, decode_eq_ok_iff.2 rfl, decode_eq_ok_iff.2 rfl,
    decode_eq_ok_iff.2 rfl, decode_eq_ok_iff.2 rfl, rfl, rfl, rfl⟩

/-! Well-formed tables. -/

/-- The union of two patterns has the first one's bits in the first one's mask, where the patterns lie within their
masks and differ in no bit that both masks fix. -/
theorem union_and_mask_eq {p p' m m' : Half} (hp : p &&& ~~~m = 0) (hp' : p' &&& ~~~m' = 0)
    (hsame : (p ^^^ p') &&& m &&& m' = 0) : (p ||| p') &&& m = p := by
  apply BitVec.eq_of_getLsbD_eq
  intro k hk
  have h := congrArg (fun v => v.getLsbD k) hp
  have h' := congrArg (fun v => v.getLsbD k) hp'
  have hs := congrArg (fun v => v.getLsbD k) hsame
  simp only [BitVec.getLsbD_and, BitVec.getLsbD_or, BitVec.getLsbD_xor, BitVec.getLsbD_not, hk, decide_true,
    Bool.true_and, BitVec.ofNat_eq_ofNat, BitVec.getLsbD_zero] at h h' hs ⊢
  revert h h' hs
  generalize p.getLsbD k = p, p'.getLsbD k = p', m.getLsbD k = m, m'.getLsbD k = m'
  revert p p' m m'
  decide

/-- Two rows whose patterns lie within their masks differ in a bit both of them fix exactly when no opcode matches
both: where they do not, the union of the two patterns matches both. -/
theorem Row.disjoint_iff {r r' : Row} (hr : r.pattern &&& ~~~r.mask = 0) (hr' : r'.pattern &&& ~~~r'.mask = 0) :
    r.disjoint r' = true ↔ ∀ op : Half, ¬ (op &&& r.mask = r.pattern ∧ op &&& r'.mask = r'.pattern) := by
  constructor
  · rintro hd op ⟨ha, ha'⟩
    exact Row.not_accepts_of_disjoint hd (Row.accepts_iff.2 ha) (Row.accepts_iff.2 ha')
  · intro hno
    by_contra hd
    have hsame : (r.pattern ^^^ r'.pattern) &&& r.mask &&& r'.mask = 0 := by simpa [Row.disjoint] using hd
    have hsame' : (r'.pattern ^^^ r.pattern) &&& r'.mask &&& r.mask = 0 := by
      rwa [BitVec.xor_comm, BitVec.and_assoc, BitVec.and_comm r'.mask, ← BitVec.and_assoc]
    refine hno (r.pattern ||| r'.pattern) ⟨union_and_mask_eq hr hr' hsame, ?_⟩
    rw [BitVec.or_comm]
    exact union_and_mask_eq hr' hr hsame'

/-- The check on one row: R57 and clause (1) of R62. -/
theorem Row.wf_iff {r : Row} :
    r.wf = true ↔ r.pattern &&& ~~~r.mask = 0 ∧
      (∀ layout top, r.desc.src = .ea layout top → 5 ≤ top ∧ top ≤ 15) ∧
      (∀ hi, r.desc.dst = .dataReg hi → 2 ≤ hi ∧ hi ≤ 15) := by
  obtain ⟨pattern, mask, operandBytes, ⟨layout, top⟩, ⟨hi⟩, kind, text⟩ := r
  simp [Row.wf, Row.patternInMask, SrcKind.wf, DstKind.wf, and_assoc]

/-- The check on the whole table, row by row and pair by pair. -/
theorem Table.wf_iff {t : Table} :
    t.wf = true ↔ (∀ r ∈ t, r.wf = true) ∧ t.Pairwise (fun r r' => r.disjoint r' = true) := by
  have hpairs : Table.disjoint t = true ↔ t.Pairwise (fun r r' => r.disjoint r' = true) := by
    induction t with
    | nil => simp [Table.disjoint]
    | cons r t ih => rw [Table.disjoint_cons_iff, List.pairwise_cons, ih]
  rw [Table.wf, Bool.and_eq_true, List.all_eq_true, hpairs]

/-- A block with an ill-formed table refuses every transaction (log entries 9 and 13). -/
theorem Machine.transactWith_of_wf_eq_false {t : Table} (ht : t.wf = false) (s : Machine.State)
    (tx : Machine.Transaction) : Machine.transactWith t s tx = (s, .refused .illFormedTable) :=
  if_neg (by simp [ht])

/-- Settles O5: the check's clauses one by one; on rows that meet the first, the bit test on two rows is that no
opcode matches both (`Row.disjoint_iff`). -/
theorem wellFormedTableMatchesOneRow : Obligations.WellFormedTableMatchesOneRow := by
  intro t
  refine ⟨?_, fun ht s tx => Machine.transactWith_of_wf_eq_false ht s tx⟩
  rw [Table.wf_iff]
  simp only [Row.wf_iff]
  refine and_congr_right fun hrows => List.Pairwise.iff_of_mem fun hr hr' => ?_
  exact Row.disjoint_iff (hrows _ hr).1 (hrows _ hr').1

/-- A row whose mask fixes all 16 bits matches its own pattern only (R64). -/
theorem Row.accepts_of_exact {r : Row} (h : r.mask = 0xFFFF) (op : Half) : r.accepts op = (r.pattern == op) := by
  have hall : op &&& 0xFFFF = op := BitVec.and_allOnes
  rw [Row.accepts, h, hall, BEq.comm]

/-- Settles O7: the search asks an exact row for its pattern alone (`Row.accepts_of_exact`). -/
theorem exactRowsKeyByOpcodeValue : Obligations.ExactRowsKeyByOpcodeValue := by
  intro t op hexact
  rw [lookupDesc, List.find?_congr fun r hr => Row.accepts_of_exact (hexact r hr) op]

end Sys2Proof

/-! PROOFS. Of the statements of 42_add.md: the corner cases of an add to itself (R94) and of two immediates (R96). -/

namespace Sys2Proof.Machine

theorem getLsbD_31_iff {v : Word} : v.getLsbD 31 = true ↔ 2 ^ 31 ≤ v.toNat := by
  rw [← BitVec.msb_eq_getLsbD_last (x := v), BitVec.msb_eq_decide, decide_eq_true_iff]

/-- The double of a value has its bit 30 as its bit 31. -/
theorem getLsbD_31_add_self (v : Word) : (v + v).getLsbD 31 = v.getLsbD 30 := by
  have hshift : v + v = v <<< 1 := by
    apply BitVec.eq_of_toNat_eq
    rw [BitVec.toNat_add, BitVec.toNat_shiftLeft, Nat.shiftLeft_eq]
    omega
  simp [hshift]

/-- Settles O11: the carry and overflow formulas of R93 at bit 31, with one value as both addends. -/
theorem addToItselfDoubles : Obligations.AddToItselfDoubles := by
  intro s x
  have heffect := s.finish_addEffect (s.readD x) x 2
  have hresult : (s.finish .add (s.readD x) x 2).readD x = s.readD x + s.readD x := by simp
  have hcarry : ∀ b : Bool, (b = true ↔ 2 ^ 32 ≤ (s.readD x).toNat + (s.readD x).toNat) →
      b = (s.readD x).getLsbD 31 := fun b hb => by
    rw [Bool.eq_iff_iff, hb, getLsbD_31_iff]
    omega
  refine ⟨_, rfl, ?_, hcarry _ heffect.carry, hcarry _ heffect.extend, ?_⟩
  · rw [heffect.result, Nat.two_mul]
  · rw [heffect.overflowFormula, hresult]
    simp only [BitVec.getLsbD_or, BitVec.getLsbD_and, BitVec.getLsbD_not, getLsbD_31_add_self]
    cases (s.readD x).getLsbD 31 <;> simp

/-- Adding `0xFFFFFFFF` subtracts 1 modulo 2^32. -/
theorem allOnes_add (v : Word) : 0xFFFFFFFF + v = v - 1 := by
  bv_omega

/-- Settles O12: the carry of R93 as an unsigned sum of at least `2 ^ 32`, at the two immediates. -/
theorem addImmediateCornerCases : Obligations.AddImmediateCornerCases := by
  intro s x
  constructor
  · have heffect := s.finish_addEffect 0xFFFFFFFF x 6
    have hcarry : 2 ^ 32 ≤ (0xFFFFFFFF : Word).toNat + (s.readD x).toNat ↔ s.readD x ≠ 0 := by bv_omega
    refine ⟨_, rfl, ?_, heffect.carry.trans hcarry, heffect.extend.trans hcarry⟩
    simpa using allOnes_add (s.readD x)
  · have heffect := s.finish_addEffect 0 x 6
    have hcarry : ¬ 2 ^ 32 ≤ (0 : Word).toNat + (s.readD x).toNat := by bv_omega
    have hoverflow : ¬ ((0 : Word).toInt + (s.readD x).toInt < -2 ^ 31 ∨
        2 ^ 31 ≤ (0 : Word).toInt + (s.readD x).toInt) := by
      have hlow := (s.readD x).le_toInt
      have hhigh := (s.readD x).toInt_lt
      simp only [BitVec.ofNat_eq_ofNat, BitVec.toInt_zero]
      omega
    exact ⟨_, rfl, by simp, Bool.eq_false_iff.2 (mt heffect.extend.1 hcarry),
      Bool.eq_false_iff.2 (mt heffect.carry.1 hcarry), Bool.eq_false_iff.2 (mt heffect.overflow.1 hoverflow)⟩

end Sys2Proof.Machine

/-! PROOFS. Of the statements of 40_dispatch.md: what a step can answer (R73, R74), that the table-driven engine and the
dispatching step are one function (R61, R65), what a step sees of memory (R77, R83), and the faults of a disassembly
(R84, R85). -/

namespace Sys2Proof.Machine

/-! A step and the decoder. -/

/-- Settles O13: the bytes that decode are an encoding, whose two parts stand where a step fetches them. -/
theorem stepRunsDecodedInstruction : Obligations.StepRunsDecodedInstruction := by
  intro s i ob opnd hr hob hdecode hopnd
  have hbytes : ob ++ opnd = bytesBE16 i.opcode ++ i.operand := by
    simpa [encode] using decode_eq_ok_iff.1 hdecode
  obtain ⟨rfl, rfl⟩ := List.append_inj hbytes (length_of_memRead hob)
  exact step_of_opcode hr hob fun hne => by rw [← Instr.length_operand_of_ne_nil hne, hopnd hne]

/-! What a step answers. -/

/-- A row of the default table has no operand bytes or four (R67). -/
theorem operandBytes_of_lookup {op : Half} {d : Descriptor} (h : lookupDesc defaultTable op = some d) :
    d.operandBytes = 0 ∨ d.operandBytes = 4 := by
  have hl : (List.replicate d.operandBytes (0 : Byte)).length = d.operandBytes := List.length_replicate
  obtain ⟨i, _, _, hopnd⟩ := opcode_of_lookup h _ hl
  rw [← hl, ← hopnd]
  exact i.length_operand

/-- An operand fetch over the default table is one of four bytes (R67, R77). -/
theorem eq_four_of_asksOperand {maps : List Mapping} {a : Word} {n : Nat} (h : AsksOperand defaultTable maps a n) :
    n = 4 := by
  obtain ⟨hne, ob, d, _, hd, rfl⟩ := h
  exact (operandBytes_of_lookup hd).resolve_left hne

/-- Settles O17: a ready CPU's fetch answers, and the step completes, or raises in one of the three stages. -/
theorem stepRefusedExactlyWhenNotReady : Obligations.StepRefusedExactlyWhenNotReady := by
  intro s
  refine ⟨fun hr => by simp [step, hr], fun hr => ?_⟩
  cases hfetch : fetch defaultTable s.maps s.pc with
  | ok r => exact .inl (step_completes_of_fetch_ok hr hfetch)
  | error f =>
    rw [step_eq_fault_iff.2 ⟨hr, hfetch⟩]
    rcases fetch_error_cases hfetch with hread | ⟨ob, _, _, rfl⟩ | ⟨n, hn, hread⟩
    · rcases memRead_error_cases hread with rfl | rfl <;> simp
    · simp
    · obtain rfl := eq_four_of_asksOperand hn
      rcases memRead_error_cases hread with rfl | rfl <;> simp

/-! The table-driven engine over the default table. -/

/-- The instruction that a class and an operand stand for means the finish of that class with that operand's value
(R60, R73). -/
theorem exec_of_ofOperands {kind : OpKind} {ea : Ea} {opnd : List Byte} {x : Reg} {i : Instr}
    (hi : Instr.ofOperands kind ea opnd x = some i) (hl : opnd.length = i.operand.length) (s : State) :
    ∃ src, s.operand ea opnd = some src ∧ exec i s = .next (s.finish kind src x (2 + opnd.length)) := by
  cases kind <;> cases ea <;> simp only [Instr.ofOperands, Option.some.injEq, reduceCtorEq] at hi
  all_goals
    subst hi
    rw [hl]
  case move.immediate => exact ⟨_, if_pos hl, rfl⟩
  case add.immediate => exact ⟨_, if_pos hl, rfl⟩
  all_goals exact ⟨_, rfl, rfl⟩

/-- What stages 1 to 3 fetch over the default table is an instruction, whose meaning is what the engine does with the
descriptor. -/
theorem step_eq_finish_of_fetch_ok {s : State} {d : Descriptor} {op : Half} {opnd : List Byte} (hr : s.ready = true)
    (hf : fetch defaultTable s.maps s.pc = .ok (d, op, opnd)) :
    ∃ src, s.resolveSrc d op opnd = some src ∧
      step s = .next (s.finish d.kind src (d.dst.reg op) (2 + d.operandBytes)) := by
  obtain ⟨_, _, _, hd, ho⟩ := fetch_eq_ok_iff.1 hf
  have hl := length_of_fetchOperand ho
  obtain ⟨i, hi, _, hopnd⟩ := opcode_of_lookup hd opnd hl
  obtain ⟨src, hsrc, hexec⟩ := exec_of_ofOperands hi (by rw [hopnd]) s
  have hfetched : s.fetchInstr = .ok i := by simp [State.fetchInstr, hf, hi]
  exact ⟨src, hsrc, by rw [step_of_fetchInstr hr hfetched, hexec, hl]⟩

/-- The engine over the default table is the dispatching step (R61, R65, R73). -/
theorem stepWith_defaultTable (s : State) : stepWith defaultTable s = step s := by
  by_cases hr : s.ready = true
  · cases hf : fetch defaultTable s.maps s.pc with
    | error f => rw [stepWith_of_fetch_error wf_defaultTable hr hf, step_eq_fault_iff.2 ⟨hr, hf⟩]
    | ok r =>
      obtain ⟨d, op, opnd⟩ := r
      obtain ⟨src, hsrc, hstep⟩ := step_eq_finish_of_fetch_ok hr hf
      simp [stepWith, wf_defaultTable, hr, hf, hsrc, hstep]
  · simp [stepWith, step, wf_defaultTable, hr]

/-- Settles O19: `stepWith_defaultTable`, and the transaction answers the engine's outcome case by case. -/
theorem tableEngineAgreesWithDispatch : Obligations.TableEngineAgreesWithDispatch := by
  refine ⟨stepWith_defaultTable, fun t s ht => ?_⟩
  rw [transactWith_step ht]
  exact ⟨fun s' h => by rw [h]; rfl, fun f h => by rw [h]; rfl, fun r h => by rw [h]; rfl⟩

/-! What a step sees of memory. -/

/-- Stages 1 to 3 answer alike over two maps that answer the reads of those stages alike (R77). -/
theorem fetch_congr {t : Table} {maps maps' : List Mapping} {a : Word}
    (hop : memRead maps' a 2 = memRead maps a 2)
    (hopnd : ∀ n, AsksOperand t maps a n → memRead maps' (a + 2) n = memRead maps (a + 2) n) :
    fetch t maps' a = fetch t maps a := by
  unfold fetch
  rw [hop]
  cases hob : memRead maps a 2 with
  | error f => rfl
  | ok ob =>
    cases hd : lookupDesc t (be16 ob) with
    | none => simp only [hd]
    | some d =>
      have hfetch : fetchOperand maps' a d.operandBytes = fetchOperand maps a d.operandBytes := by
        unfold fetchOperand
        split
        · rfl
        · next hn => exact hopnd d.operandBytes ⟨hn, ob, d, hob, hd, rfl⟩
      simp only [hd, hfetch]

/-- An instruction's meaning depends on the registers alone, and carries the bus's side of the state along (R83). -/
theorem exec_with_bus {i : Instr} {s t : State} (h : exec i s = .next t) (maps : List Mapping) (b : Bool) (n : Nat) :
    exec i { s with maps := maps, busReset := b, draws := n } =
      .next { t with maps := maps, busReset := b, draws := n } := by
  cases i
  all_goals
    cases h
    rfl

/-- Settles O20: both states fetch the same instruction or raise the same fault, and its meaning is the same over the
same registers. -/
theorem stepSeesOnlyFetchedBytes : Obligations.StepSeesOnlyFetchedBytes := by
  intro s s' hd ha hpc hsr hready hop hopnd
  have hfetch : fetch defaultTable s'.maps s'.pc = fetch defaultTable s.maps s.pc := by
    rw [hpc]
    exact fetch_congr hop hopnd
  refine ⟨fun t hstep => ?_, fun f hstep => ?_⟩
  · obtain ⟨hr, i, hi, hexec, _⟩ := step_eq_next hstep
    have hi' : s'.fetchInstr = .ok i := by rw [← hi, State.fetchInstr, hfetch, hpc, State.fetchInstr]
    have hs' : s' = { s with maps := s'.maps, busReset := s'.busReset, draws := s'.draws } := by
      rw [← hd, ← ha, ← hpc, ← hsr, ← hready]
    have hexec' := exec_with_bus hexec s'.maps s'.busReset s'.draws
    rw [← hs'] at hexec'
    exact ⟨_, (step_of_fetchInstr (hready.trans hr) hi').trans hexec', rfl, rfl, rfl, rfl⟩
  · obtain ⟨hr, hf⟩ := step_eq_fault_iff.1 hstep
    exact step_eq_fault_iff.2 ⟨hready.trans hr, hfetch.trans hf⟩

/-- Settles O24: a disassembly raises what stages 1 to 3 raise, and so does a step of a ready CPU. -/
theorem disassemblyRaisesLikeStep : Obligations.DisassemblyRaisesLikeStep := by
  intro s f
  refine ⟨fun hr => ?_, fun t a ht hdis => ?_⟩
  · rw [disassemble_eq_error_iff, step_eq_fault_iff, and_iff_right hr]
  · rw [transactWith_disassemble ht, answerText_of_error hdis]

end Sys2Proof.Machine

/-! PROOFS. Of the statements about bytes written and then fetched: the big-endian halves of a 32-bit value (R44), an
instruction the host writes at the program counter (R52, R123), and the model's own port for a table word (log
entry 6). -/

namespace Sys2Proof

/-- The first two bytes of a 32-bit value are its upper half (R44). -/
theorem be16_take_bytesBE32 (v : Word) : be16 ((bytesBE32 v).take 2) = v.extractLsb' 16 16 :=
  BitVec.extractLsb'_append_extractLsb'_eq_extractLsb' rfl

/-- The last two bytes of a 32-bit value are its lower half (R44). -/
theorem be16_drop_bytesBE32 (v : Word) : be16 ((bytesBE32 v).drop 2) = v.extractLsb' 0 16 :=
  BitVec.extractLsb'_append_extractLsb'_eq_extractLsb' rfl

theorem length_tableWordBytes (nbits w : Nat) : (tableWordBytes nbits w).length = 6 := rfl

/-- A table word that decodes does so with the bytes after its instruction left over. -/
theorem decode_of_decodeTableWord {nbits w : Nat} {i : Instr} (h : decodeTableWord nbits w = some i) :
    ∃ rest, decode (tableWordBytes nbits w) = .ok (i, rest) := by
  unfold decodeTableWord at h
  split at h
  · next i' rest hdecode =>
    cases h
    exact ⟨rest, hdecode⟩
  · cases h

end Sys2Proof

namespace Sys2Proof.Machine

/-! Part of what was written, and what stands beside it. -/

/-- Part of the bytes written, read from their own place. -/
theorem Memory.readBytes_writeBytes_part {m : Memory} (h : m.wf) (off : Nat) {bs : List Byte} {k n : Nat}
    (hn : k + n ≤ bs.length) : (m.writeBytes off bs).readBytes (off + k) n = (bs.drop k).take n := by
  apply List.ext_getElem?
  intro j
  rw [Memory.getElem?_readBytes, List.getElem?_take]
  split
  · rw [Memory.read_writeBytes h, if_pos (by omega), List.getElem?_drop, Nat.add_assoc, Nat.add_sub_cancel_left,
      List.getD_eq_getElem?_getD, List.getElem?_eq_getElem (by omega), Option.getD_some]
  · rfl

/-- Bytes put in one mapping leave an address routed to another as it was. -/
theorem lookup_putBytes_of_ne {maps : List Mapping} {id id' addr off : Nat} {m m' : Mapping} {bs : List Byte}
    (hm : maps[id]? = some m) (hlk : lookup maps addr = some (id', m')) (hne : id' ≠ id) :
    lookup (putBytes maps id m off bs) addr = some (id', m') := by
  have hlen : Region.len { m.region with mem := m.region.mem.writeBytes off bs } = m.region.len := rfl
  rw [putBytes, lookup_setRegion hm hlen, hlk, Option.map_some, if_neg hne]

section written

variable {maps maps' : List Mapping} {a : Word} {bs : List Byte} (hwf : ∀ m ∈ maps, m.wf)
  (hw : memWrite maps a bs = .ok maps')
include hwf hw

/-- Part of the bytes of a routed write reads back from an address that is routed to the region written. -/
theorem memRead_part_of_memWrite {a' : Word} {k n : Nat} (ha : a'.toNat = a.toNat + k)
    (hid : (lookup maps a'.toNat).map Prod.fst = (lookup maps a.toNat).map Prod.fst) (hn : k + n ≤ bs.length) :
    memRead maps' a' n = .ok ((bs.drop k).take n) := by
  obtain ⟨id, m, hlk, hl, rfl⟩ := memWrite_eq_ok_iff.1 hw
  have hm := (lookup_eq_some_iff.1 hlk).1
  have hbase := base_le_of_lookup hlk
  rw [hlk, Option.map_some, Option.map_eq_some_iff] at hid
  obtain ⟨⟨_, m'⟩, hlk', rfl⟩ := hid
  obtain rfl : m = m' := Option.some.inj (hm.symm.trans (lookup_eq_some_iff.1 hlk').1)
  have hoff : a'.toNat - m.base = a.toNat - m.base + k := by omega
  refine memRead_eq_ok_iff.2 ⟨_, _, lookup_putBytes_of_lookup hlk', ?_, ?_⟩
  · simp only
    omega
  · simp only [hoff]
    exact (Memory.readBytes_writeBytes_part (memory_wf_of_getElem? hwf hm) _ hn).symm

/-- Bytes that can be read beside those of a routed write read as before. -/
theorem memRead_beside_memWrite {a' : Word} {n : Nat} {out : List Byte} (hr : memRead maps a' n = .ok out)
    (hd : a'.toNat + n ≤ a.toNat ∨ a.toNat + bs.length ≤ a'.toNat) : memRead maps' a' n = .ok out := by
  obtain ⟨id, m, hlk, hl, rfl⟩ := memWrite_eq_ok_iff.1 hw
  obtain ⟨id', m', hlk', hl', rfl⟩ := memRead_eq_ok_iff.1 hr
  have hm := (lookup_eq_some_iff.1 hlk).1
  by_cases hid : id' = id
  · subst hid
    obtain rfl : m = m' := Option.some.inj (hm.symm.trans (lookup_eq_some_iff.1 hlk').1)
    have hbase := base_le_of_lookup hlk
    have hbase' := base_le_of_lookup hlk'
    refine memRead_eq_ok_iff.2 ⟨_, _, lookup_putBytes_of_lookup hlk', hl', ?_⟩
    exact (Memory.readBytes_writeBytes_of_disjoint (memory_wf_of_getElem? hwf hm) _ _ _ _ (by omega)).symm
  · exact memRead_eq_ok_iff.2 ⟨id', m', lookup_putBytes_of_ne hm hlk' hid, hl', rfl⟩

end written

/-- Settles O31: the whole and its halves are parts of the four bytes written. -/
theorem mixedWidthAccessIsBigEndian : Obligations.MixedWidthAccessIsBigEndian := by
  intro maps maps' a v hwf hw
  refine ⟨⟨_, memRead_of_memWrite hwf hw, by rw [be32_bytesBE32]⟩, ⟨(bytesBE32 v).take 2, ?_, ?_⟩,
    fun hlt hid => ⟨(bytesBE32 v).drop 2, ?_, ?_⟩⟩
  · exact memRead_part_of_memWrite hwf hw (k := 0) (n := 2) rfl rfl (by simp)
  · have := v.isLt
    rw [be16_take_bytesBE32, BitVec.extractLsb'_toNat, Nat.shiftRight_eq_div_pow]
    omega
  · exact memRead_part_of_memWrite hwf hw (k := 2) (n := 2) (by bv_omega) hid (by simp)
  · rw [be16_drop_bytesBE32, BitVec.extractLsb'_toNat, Nat.shiftRight_zero]

/-! An instruction written where a step fetches it. -/

/-- Settles O21: both writes are the routed write, whose bytes are the opcode word's and the operand's. -/
theorem stepRunsFreshlyWrittenBytes : Obligations.StepRunsFreshlyWrittenBytes := by
  intro s s' i tx hs hr htx hdone hroute
  have hanswer : transactWith defaultTable s tx = answerWrite s (memWrite s.maps s.pc (encode i)) := by
    rcases htx with rfl | ⟨id, m, hlk, rfl⟩
    · exact transactWith_busWrite wf_defaultTable s _ _
    · rw [transactWith_busWriteId wf_defaultTable, writeId_eq_memWrite hlk]
  rw [hanswer] at hdone
  rcases answerWrite_cases s (memWrite s.maps s.pc (encode i)) with ⟨f, hf⟩ | ⟨maps, hw, hok⟩
  · rw [hf] at hdone
    cases hdone
  · rw [hok] at hdone
    cases hdone
    have hop : memRead maps s.pc 2 = .ok (bytesBE16 i.opcode) :=
      memRead_part_of_memWrite hs hw (k := 0) (n := 2) rfl rfl (by simp [encode])
    refine step_of_opcode (s := { s with maps := maps }) hr hop fun hne => ?_
    obtain ⟨hlt, hid⟩ := hroute hne
    have hl := Instr.length_operand_of_ne_nil hne
    rw [memRead_part_of_memWrite hs hw (k := 2) (by bv_omega) hid (by simp [encode, hl])]
    simp [encode, bytesBE16, hl]

/-! A table word placed where the next step fetches. -/

/-- The addresses of the operand's four bytes are not those of the opcode word's two, whether or not the address
after the opcode word wraps (R77). -/
theorem operandAddr_apart (a : Word) :
    (operandAddr a).toNat = a.toNat + 2 ∨ (operandAddr a).toNat + 4 < a.toNat := by
  unfold operandAddr
  bv_omega

/-- The mappings with two regions in front that hold the operand bytes and the opcode bytes: the second way in which
`placeBytes` places an instruction. -/
def regionsInFront (maps : List Mapping) (a : Word) (ob opnd : List Byte) : List Mapping :=
  { base := (operandAddr a).toNat, region := { len := opnd.length, mem := Memory.writeBytes [] 0 opnd } }
    :: { base := a.toNat, region := { len := ob.length, mem := Memory.writeBytes [] 0 ob } } :: maps

/-- The two ways in which an instruction is placed. -/
theorem placeBytes_cases (maps : List Mapping) (a : Word) (ob opnd : List Byte) :
    placeBytes maps a ob opnd = regionsInFront maps a ob opnd ∨
    ∃ maps', memWrite maps a ob = .ok maps' ∧
      memWrite maps' (operandAddr a) opnd = .ok (placeBytes maps a ob opnd) := by
  unfold placeBytes
  cases hw : memWrite maps a ob with
  | error f => exact .inl rfl
  | ok maps' =>
    cases hw' : memWrite maps' (operandAddr a) opnd with
    | error f => exact .inl (by simp only [hw']; rfl)
    | ok maps'' => exact .inr ⟨maps', rfl, by simp only [hw']⟩

/-- A region at an address that holds just the given bytes answers them to a read there. -/
theorem memRead_of_lookup_exact {maps : List Mapping} {a : Word} {id : Nat} {bs : List Byte}
    (h : lookup maps a.toNat =
      some (id, { base := a.toNat, region := { len := bs.length, mem := Memory.writeBytes [] 0 bs } })) :
    memRead maps a bs.length = .ok bs := by
  refine memRead_eq_ok_iff.2 ⟨id, _, h, by simp, ?_⟩
  simp only [Nat.sub_self]
  exact (Memory.readBytes_writeBytes Memory.wf_nil 0 bs).symm

section placed

variable {maps : List Mapping} {a : Word} {ob opnd : List Byte} (hob : ob.length = 2) (hopnd : opnd.length = 4)
include hob hopnd

/-- The operand's region, which comes first, does not claim the opcode word's address (R35). -/
theorem memRead_regionsInFront :
    memRead (regionsInFront maps a ob opnd) a 2 = .ok ob ∧
      memRead (regionsInFront maps a ob opnd) (operandAddr a) 4 = .ok opnd := by
  have hapart := operandAddr_apart a
  rw [← hob, ← hopnd]
  constructor
  · refine memRead_of_lookup_exact (id := 1) (lookup_eq_some_iff.2 ⟨rfl, ?_, fun j hj m hm => ?_⟩)
    · simp [Mapping.claims_iff, Mapping.limit]
    · obtain rfl : j = 0 := by omega
      cases hm
      rw [Mapping.claims_eq_false_iff]
      simp only
      omega
  · refine memRead_of_lookup_exact (id := 0) (lookup_eq_some_iff.2 ⟨rfl, ?_, fun j hj => by omega⟩)
    simp [Mapping.claims_iff, Mapping.limit]

/-- Bytes placed at an address stand where stages 1 and 3 of a step read them. -/
theorem memRead_placeBytes (hwf : ∀ m ∈ maps, m.wf) :
    memRead (placeBytes maps a ob opnd) a 2 = .ok ob ∧
      memRead (placeBytes maps a ob opnd) (operandAddr a) 4 = .ok opnd := by
  rcases placeBytes_cases maps a ob opnd with h | ⟨maps', hw, hw'⟩
  · rw [h]
    exact memRead_regionsInFront hob hopnd
  · have hwf' := wf_memWrite hwf hw
    have hapart := operandAddr_apart a
    have hop := memRead_of_memWrite hwf hw
    rw [hob] at hop
    exact ⟨memRead_beside_memWrite hwf' hw' hop (by omega), hopnd ▸ memRead_of_memWrite hwf' hw'⟩

end placed

/-- Settles O22: the word's six bytes are the encoding and the bytes after it, and stand where the step fetches. -/
theorem placedWordIsRun : Obligations.PlacedWordIsRun := by
  intro s nbits w i hs hword
  refine ⟨?_, rfl, rfl, rfl, rfl⟩
  obtain ⟨rest, hdecode⟩ := decode_of_decodeTableWord hword
  have hbytes : tableWordBytes nbits w = bytesBE16 i.opcode ++ (i.operand ++ rest) := by
    rw [decode_eq_ok_iff.1 hdecode, encode, List.append_assoc]
  have hsix : (i.operand ++ rest).length = 4 := by
    have hlen := congrArg List.length hbytes
    rw [length_tableWordBytes, List.length_append, length_bytesBE16] at hlen
    omega
  obtain ⟨hop, hopnd⟩ := memRead_placeBytes (a := s.pc) (length_bytesBE16 i.opcode) hsix hs
  have hmaps : (s.withFetchWord nbits w).maps =
      placeBytes s.maps s.pc (bytesBE16 i.opcode) (i.operand ++ rest) := by
    rw [State.withFetchWord, State.placeInstr_maps, hbytes]
    rfl
  refine step_of_opcode rfl (by rw [hmaps]; exact hop) fun hne => ?_
  obtain rfl : rest = [] := by simpa [Instr.length_operand_of_ne_nil hne] using hsix
  rw [List.append_nil] at hmaps hopnd
  rw [hmaps]
  exact hopnd

end Sys2Proof.Machine

/-! PROOFS. Of the statements about the whole block: the invariant (R29, R33), what a transaction that raises leaves
(R100 to R102), the writers of the registers and of memory (R17, R22), and runs of transactions (R20, R74, R101). -/

namespace Sys2Proof.Machine

/-! One transaction. -/

/-- Every transaction keeps the invariant: a mapping is added, reset, written in, or left as it was. -/
theorem wf_transactWith {s : State} (hs : s.wf) (t : Table) (tx : Transaction) : (transactWith t s tx).1.wf := by
  rcases transactWith_cases t s tx with hq | ⟨f, h⟩ | ⟨a, g, _, h⟩ | ⟨p, _, h⟩ | ⟨a, bs, maps, _, hw, h⟩ |
    ⟨id, a, bs, maps, _, hw, h⟩ | ⟨sp, npc, _, _, _, h⟩ | ⟨s', _, hstep, h⟩
  case inl => rwa [hq.1]
  all_goals rw [h]
  · exact hs
  · exact wf_attach hs a g
  · exact wf_resetRegionsFrom hs p s.draws 0
  · exact wf_memWrite hs hw
  · exact wf_writeId hs hw
  · exact hs
  · obtain ⟨_, d, op, opnd, src, _, _, rfl⟩ := stepWith_eq_next hstep
    exact hs

/-- Settles O43: `wf_transactWith`, and a completed step changes no mapping. -/
theorem transactionsKeepInvariant : Obligations.TransactionsKeepInvariant := by
  refine ⟨fun t s tx hs => wf_transactWith hs t tx, fun s s' hs hstep => ?_⟩
  obtain ⟨_, i, _, _, kind, src, x, rfl⟩ := step_eq_next hstep
  exact hs

/-- What a transaction can do to the registers and to readiness: nothing, where the bus and the draws alone change and
no fault is reported; raise a fault; load the reset vector; or finish an instruction. -/
theorem transactWith_register_cases (t : Table) (s : State) (tx : Transaction) :
    (∃ maps b n, (transactWith t s tx).1 = { s with maps := maps, busReset := b, draws := n } ∧
      ∀ f, (transactWith t s tx).2 ≠ .fault f) ∨
    (∃ f, transactWith t s tx = (s.raise f, .fault f)) ∨
    (∃ sp npc, tx = .cpuReset ∧ transactWith t s tx = (s.loadVector sp npc, .done)) ∨
    (∃ kind src x len, tx = .step ∧ transactWith t s tx = (s.finish kind src x len, .done)) := by
  rcases transactWith_cases t s tx with hq | ⟨f, h⟩ | ⟨a, g, _, h⟩ | ⟨p, _, h⟩ | ⟨a, bs, maps, _, _, h⟩ |
    ⟨id, a, bs, maps, _, _, h⟩ | ⟨sp, npc, htx, _, _, h⟩ | ⟨s', htx, hstep, h⟩
  · exact .inl ⟨s.maps, s.busReset, s.draws, hq.1, hq.2.2⟩
  · exact .inr (.inl ⟨f, h⟩)
  · exact .inl ⟨_, _, s.draws, by rw [h]; rfl, by simp [h]⟩
  · exact .inl ⟨_, _, _, by rw [h]; rfl, by simp [h]⟩
  · exact .inl ⟨maps, s.busReset, s.draws, by rw [h], by simp [h]⟩
  · exact .inl ⟨maps, s.busReset, s.draws, by rw [h], by simp [h]⟩
  · exact .inr (.inr (.inl ⟨_, _, htx, h⟩))
  · obtain ⟨_, d, op, opnd, src, _, _, rfl⟩ := stepWith_eq_next hstep
    exact .inr (.inr (.inr ⟨_, _, _, _, htx, h⟩))

/-- A transaction that raises leaves what raising the fault leaves. -/
theorem eq_raise_of_transactWith_fault {t : Table} {s s' : State} {tx : Transaction} {f : Fault}
    (h : transactWith t s tx = (s', .fault f)) : s' = s.raise f := by
  rcases transactWith_register_cases t s tx with ⟨_, _, _, _, hno⟩ | ⟨g, hc⟩ | ⟨_, _, _, hc⟩ | ⟨_, _, _, _, _, hc⟩
  · exact absurd (by rw [h]) (hno f)
  all_goals
    rw [hc] at h
    cases h
  rfl

/-- Settles O36: a raise clears readiness after a bus fault and changes nothing else. -/
theorem raisingTransactionIsPrecise : Obligations.RaisingTransactionIsPrecise := by
  intro t s s' tx f h
  obtain rfl := eq_raise_of_transactWith_fault h
  exact ⟨rfl, fun hbus => by simp [hbus], fun hbus => by simp [hbus]⟩

/-- No transaction but `CpuReset` writes an address register or the privileged bits (R17, R20). -/
theorem transactWith_keeps_a_and_privileged {t : Table} {s : State} {tx : Transaction} (htx : tx ≠ .cpuReset) :
    (transactWith t s tx).1.a = s.a ∧ privileged (transactWith t s tx).1.sr = privileged s.sr := by
  rcases transactWith_register_cases t s tx with ⟨_, _, _, h, _⟩ | ⟨f, h⟩ | ⟨_, _, hreset, _⟩ | ⟨_, _, _, _, _, h⟩
  · simp [h]
  · simp [h]
  · exact absurd hreset htx
  · simp [h]

/-- No transaction but `Step` and `CpuReset` writes a data register, the program counter or the status register
(R22). -/
theorem transactWith_keeps_d_pc_sr {t : Table} {s : State} {tx : Transaction} (hreset : tx ≠ .cpuReset)
    (hstep : tx ≠ .step) :
    (transactWith t s tx).1.d = s.d ∧ (transactWith t s tx).1.pc = s.pc ∧ (transactWith t s tx).1.sr = s.sr := by
  rcases transactWith_register_cases t s tx with ⟨_, _, _, h, _⟩ | ⟨f, h⟩ | ⟨_, _, htx, _⟩ | ⟨_, _, _, _, htx, _⟩
  · simp [h]
  · simp [h]
  · exact absurd htx hreset
  · exact absurd htx hstep

/-- No transaction but the attachment, the bus reset and the two writes changes the mappings (R22). -/
theorem transactWith_keeps_maps {t : Table} {s : State} {tx : Transaction} (hattach : ∀ a g, tx ≠ .busAttach a g)
    (hreset : ∀ p, tx ≠ .busReset p) (hwrite : ∀ a bs, tx ≠ .busWrite a bs)
    (hwriteId : ∀ id a bs, tx ≠ .busWriteId id a bs) : (transactWith t s tx).1.maps = s.maps := by
  rcases transactWith_cases t s tx with hq | ⟨f, h⟩ | ⟨a, g, htx, _⟩ | ⟨p, htx, _⟩ | ⟨a, bs, maps, htx, _⟩ |
    ⟨id, a, bs, maps, htx, _⟩ | ⟨sp, npc, _, _, _, h⟩ | ⟨s', _, hstep, h⟩
  · rw [hq.1]
  · rw [h, State.raise_maps]
  · exact absurd htx (hattach a g)
  · exact absurd htx (hreset p)
  · exact absurd htx (hwrite a bs)
  · exact absurd htx (hwriteId id a bs)
  · rw [h, State.loadVector_maps]
  · obtain ⟨_, d, op, opnd, src, _, _, rfl⟩ := stepWith_eq_next hstep
    rw [h, State.finish_maps]

/-- Settles O39: one lemma for each group of writers. -/
theorem registerAndMemoryWriters : Obligations.RegisterAndMemoryWriters := by
  intro t s tx
  refine ⟨transactWith_keeps_a_and_privileged, transactWith_keeps_d_pc_sr, fun hattach hreset hwrite hwriteId => ?_⟩
  have hmaps := transactWith_keeps_maps (t := t) (s := s) hattach hreset hwrite hwriteId
  exact ⟨hmaps, by rw [hmaps]; exact SameBytes.refl _⟩

/-- A transaction over a CPU that is not ready makes it ready only by a `CpuReset` that completes (R74, R101). -/
theorem transactWith_keeps_not_ready {t : Table} {s : State} {tx : Transaction} (hs : s.ready = false)
    (htx : ¬ (tx = .cpuReset ∧ (transactWith t s tx).2 = .done)) : (transactWith t s tx).1.ready = false := by
  rcases transactWith_register_cases t s tx with ⟨_, _, _, h, _⟩ | ⟨f, h⟩ | ⟨_, _, hreset, h⟩ | ⟨_, _, _, _, _, h⟩
  · rw [h, hs]
  · simp [h, hs]
  · exact absurd ⟨hreset, by rw [h]⟩ htx
  · rw [h, State.finish_ready, hs]

/-- A transaction that reports no bus fault keeps a ready CPU ready (R74). -/
theorem transactWith_keeps_ready {t : Table} {s : State} {tx : Transaction} (hs : s.ready = true)
    (htx : (transactWith t s tx).2.isBusFault = false) : (transactWith t s tx).1.ready = true := by
  rcases transactWith_register_cases t s tx with ⟨_, _, _, h, _⟩ | ⟨f, h⟩ | ⟨_, _, _, h⟩ | ⟨_, _, _, _, _, h⟩
  · rw [h, hs]
  · have hf : f.isBus = false := by rwa [h] at htx
    simp [h, hs, hf]
  · rw [h, State.loadVector_ready]
  · rw [h, State.finish_ready, hs]

/-! Runs. -/

/-- What every transaction of a sequence keeps, from any state, the run of the sequence keeps. -/
theorem runWith_keeps {t : Table} {P : State → Prop} {txs : List Transaction}
    (hkeep : ∀ tx ∈ txs, ∀ s, P s → P (transactWith t s tx).1) {s : State} (hs : P s) : P (runWith t s txs) := by
  induction txs generalizing s with
  | nil => exact hs
  | cons tx txs ih =>
    obtain ⟨hfirst, hrest⟩ := List.forall_mem_cons.1 hkeep
    exact ih hrest (hfirst s hs)

/-- Settles O40: no transaction of the run writes them (`transactWith_keeps_a_and_privileged`). -/
theorem runsKeepPrivilegedBits : Obligations.RunsKeepPrivilegedBits := by
  intro t s txs hno
  refine runWith_keeps (P := fun u => privileged u.sr = privileged s.sr ∧ u.a = s.a) ?_ ⟨rfl, rfl⟩
  rintro tx htx u ⟨hsr, ha⟩
  obtain ⟨ha', hsr'⟩ := transactWith_keeps_a_and_privileged (t := t) (s := u) (hno tx htx)
  exact ⟨hsr'.trans hsr, ha'.trans ha⟩

/-- A CPU that is not ready stays so over a run in which no `CpuReset` completes (R74). -/
theorem runWith_keeps_not_ready {t : Table} {s : State} {txs : List Transaction} (hs : s.ready = false)
    (hno : NoCompletedReset t s txs) : (runWith t s txs).ready = false := by
  induction txs generalizing s with
  | nil => exact hs
  | cons tx txs ih =>
    obtain ⟨hfirst, hrest⟩ := hno
    exact ih (transactWith_keeps_not_ready hs hfirst) hrest

/-- A step of a CPU that is not ready is refused, over every well-formed table (R74). -/
theorem transactWith_step_of_not_ready {t : Table} {s : State} (ht : t.wf = true) (hs : s.ready = false) :
    transactWith t s .step = (s, .refused .cpuNotReady) := by
  simp [transactWith_step ht, stepWith, ht, hs, answerStep]

/-- Settles O41: the raise leaves the CPU not ready, and it stays so (`runWith_keeps_not_ready`). -/
theorem busFaultIsTerminal : Obligations.BusFaultIsTerminal := by
  intro t s tx f txs ht hfault hbus hno
  have hraise : (transactWith t s tx).1 = { s with ready := false } :=
    (eq_raise_of_transactWith_fault (Prod.ext rfl hfault)).trans (State.raise_of_isBus hbus s)
  have hready := runWith_keeps_not_ready (by rw [hraise]) hno
  exact ⟨hraise, transactWith_step_of_not_ready ht hready⟩

/-- Settles O42: induction over the run, with `transactWith_keeps_ready` for each transaction. -/
theorem safeRunStaysReady : Obligations.SafeRunStaysReady := by
  intro t s txs hs hsafe
  induction txs generalizing s with
  | nil => exact hs
  | cons tx txs ih =>
    obtain ⟨hfirst, hrest⟩ := hsafe
    exact ih _ (transactWith_keeps_ready hs hfirst) hrest

/-- Settles O44: no region is attached at power-on, and the one region after reset lists no cell. -/
theorem resetMeetsInvariant : Obligations.ResetMeetsInvariant := ⟨by decide, by decide⟩

end Sys2Proof.Machine

/-! PROOFS. Of the statements about attachments, resets and faults: an attachment and a bus reset (R31, R33, R34, R41),
the admission of `CpuReset` over a run (R117), the reset vector (R113 to R118), and the causes of faults (R97 to
R99, R102). -/

namespace Sys2Proof.Machine

/-! The admission of `CpuReset`. -/

theorem cpuReset_of_not_busReset {s : State} (h : s.busReset = false) : cpuReset s = (s, .refused .busNotReset) := by
  simp [cpuReset, h]

/-- After a bus reset a `CpuReset` may raise but is admitted (R116, R117). -/
theorem cpuReset_not_refused {s : State} (h : s.busReset = true) (r : Refusal) : (cpuReset s).2 ≠ .refused r := by
  unfold cpuReset
  rw [if_pos h]
  split
  · simp
  · split <;> simp

/-- Nothing but a bus reset sets the admission bit (R117). -/
theorem busReset_bit_stays_false {t : Table} {s : State} {tx : Transaction} (htx : ∀ p, tx ≠ .busReset p)
    (hs : s.busReset = false) : (transactWith t s tx).1.busReset = false := by
  by_cases ha : ∃ a g, tx = .busAttach a g
  · obtain ⟨a, g, rfl⟩ := ha
    by_cases ht : t.wf = true <;> simp [transactWith, ht, hs]
  · rw [transactWith_busReset_bit (by simpa using ha) htx, hs]

/-- Nothing but an attachment clears the admission bit (R117). -/
theorem busReset_bit_stays_true {t : Table} {s : State} {tx : Transaction} (htx : ∀ a g, tx ≠ .busAttach a g)
    (hs : s.busReset = true) : (transactWith t s tx).1.busReset = true := by
  by_cases hr : ∃ p, tx = .busReset p
  · obtain ⟨p, rfl⟩ := hr
    by_cases ht : t.wf = true <;> simp [transactWith, ht, hs]
  · rw [transactWith_busReset_bit htx (by simpa using hr), hs]

/-! An attachment and a bus reset. -/

/-- Settles O32: the mapping is appended, with its contents in canonical form; over the run nothing sets the admission
bit (`busReset_bit_stays_false`). -/
theorem attachmentAppends : Obligations.AttachmentAppends := by
  intro t s a g ht
  refine ⟨busAttach s a g, if_pos ht, by simp [attach], ⟨_, by simp [attach]; rfl, rfl, rfl, fun off hoff => ?_⟩,
    fun id hid => ?_, fun addr r hr => lookup_attach hr, rfl, fun txs hno => ?_⟩
  · exact Memory.read_canonical g.len g.mem off hoff
  · simp [attach, List.getElem?_append_left hid]
  · have hbit : (runWith t (busAttach s a g) txs).busReset = false :=
      runWith_keeps (P := fun u => u.busReset = false)
        (fun tx htx u hu => busReset_bit_stays_false (fun p hp => hno p (hp ▸ htx)) hu) rfl
    rw [transactWith_cpuReset ht, cpuReset_of_not_busReset hbit]

/-- The byte a region holds after its reset (R31). -/
theorem read_reset {g : Region} {off : Nat} (h : off < g.len) (p : Bool) (draw id : Nat) :
    (g.reset p draw id).mem.read off = if p then 0 else Config.warmByte draw id off (g.mem.read off) := by
  cases p
  · exact Memory.read_warm draw id g.mem g.len off h
  · rfl

/-- A bus reset draws or zeroes every byte under its region's identifier (R31, R41). -/
theorem byteAt_resetRegionsFrom (maps : List Mapping) (p : Bool) (draw id off : Nat) :
    byteAt (resetRegionsFrom p draw 0 maps) id off =
      (byteAt maps id off).map fun old => if p then 0 else Config.warmByte draw id off old := by
  unfold byteAt
  rw [getElem?_resetRegionsFrom]
  cases hm : maps[id]? with
  | none => rfl
  | some m =>
    by_cases hoff : off < m.region.len
    · simp [hoff, read_reset hoff]
    · simp [hoff]

/-- A bus reset leaves every base and every length (R27, R41). -/
theorem map_resetRegionsFrom (p : Bool) (draw first : Nat) (maps : List Mapping) :
    (resetRegionsFrom p draw first maps).map (fun m => (m.base, m.region.len)) =
      maps.map fun m => (m.base, m.region.len) := by
  induction maps generalizing first with
  | nil => rfl
  | cons m maps ih => simp [resetRegionsFrom, ih]

/-- Settles O33: the bytes by `byteAt_resetRegionsFrom`; over the run nothing clears the admission bit
(`busReset_bit_stays_true`). -/
theorem busResetContents : Obligations.BusResetContents := by
  intro t s p ht
  refine ⟨busReset s p, if_pos ht, byteAt_resetRegionsFrom s.maps p s.draws, map_resetRegionsFrom p s.draws 0 s.maps,
    rfl, rfl, rfl, rfl, rfl, fun txs hno r => ?_⟩
  have hbit : (runWith t (busReset s p) txs).busReset = true :=
    runWith_keeps (P := fun u => u.busReset = true)
      (fun tx htx u hu => busReset_bit_stays_true (fun a g h => hno a g (h ▸ htx)) hu) rfl
  rw [transactWith_cpuReset ht]
  exact cpuReset_not_refused hbit r

/-! The reset vector. -/

/-- What a routed read's fault leaves: the CPU not ready, and nothing else changed (R101, R116). -/
theorem raise_of_memRead_error {maps : List Mapping} {a : Word} {n : Nat} {f : Fault}
    (h : memRead maps a n = .error f) (s : State) : s.raise f = { s with ready := false } :=
  State.raise_of_isBus (by rcases memRead_error_cases h with rfl | rfl <;> rfl) s

/-- Settles O34: the branches of `cpuReset`, with the raise of each read and the loaded vector. -/
theorem cpuResetLoadsVector : Obligations.CpuResetLoadsVector := by
  intro t s ht
  rw [transactWith_cpuReset ht]
  refine ⟨cpuReset_of_not_busReset, fun hb => ⟨fun f hsp => ?_, fun sp f hsp hnpc => ?_, fun sp npc hsp hnpc => ?_⟩⟩
  · simp only [cpuReset, hb, if_true, hsp, raise_of_memRead_error hsp]
  · simp only [cpuReset, hb, if_true, hsp, hnpc, raise_of_memRead_error hnpc]
  · refine ⟨s.loadVector (be32 sp) (be32 npc), by simp only [cpuReset, hb, if_true, hsp, hnpc], ?_, rfl, rfl, rfl,
      State.readD_loadVector s _ _, fun r hr => ?_, rfl⟩
    · rw [State.readA_loadVector, if_pos rfl]
    · rw [State.readA_loadVector, if_neg hr]

/-- Settles O35: the run attaches one region of zeros, from which the vector reads as 0. -/
theorem resetStateIsBootedPlatform : Obligations.ResetStateIsBootedPlatform :=
  ⟨rfl, rfl, rfl, rfl, rfl⟩

/-! The causes of faults. -/

/-- The transaction `tx` makes a routed access of `n` bytes at `a`: the opcode fetch or the operand fetch of a step or
of a disassembly, a read of the reset vector, or the host's own access. -/
def AsksRouted (t : Table) (s : State) (tx : Transaction) (a : Word) (n : Nat) : Prop :=
  (∃ b, (tx = .step ∧ b = s.pc ∨ tx = .disassemble b) ∧
    (a = b ∧ n = 2 ∨ a = b + 2 ∧ AsksOperand t s.maps b n)) ∨
  (tx = .cpuReset ∧ n = 4 ∧ (a = 0 ∨ a = 4)) ∨ tx = .busRead a n ∨ (∃ bs, tx = .busWrite a bs ∧ n = bs.length)

/-- The transaction `tx` makes an access by identifier of `n` bytes at `a`. -/
def AsksById (tx : Transaction) (id : Nat) (a : Word) (n : Nat) : Prop :=
  tx = .busReadId id a n ∨ ∃ bs, tx = .busWriteId id a bs ∧ n = bs.length

/-- The access or the opcode from which the transaction `tx` raises the fault `f`. A write is refused by the region
for which a read of as many bytes is refused (R30), so one clause stands for both. -/
inductive FaultCause (t : Table) (s : State) (tx : Transaction) (f : Fault) : Prop where
  | routed (a : Word) (n : Nat) (h : AsksRouted t s tx a n) (hread : memRead s.maps a n = .error f)
  | byId (id : Nat) (a : Word) (n : Nat) (h : AsksById tx id a n) (hread : readId s.maps id a n = .error f)
  | opcode (a : Word) (ob : List Byte) (h : tx = .step ∧ a = s.pc ∨ tx = .disassemble a)
      (hread : memRead s.maps a 2 = .ok ob) (hnone : lookupDesc t (be16 ob) = none)
      (hf : f = .invalidOpcode a (be16 ob))

/-- A routed write raises what a routed read of as many bytes raises (R36, R37). -/
theorem memRead_error_of_memWrite_error {maps : List Mapping} {a : Word} {bs : List Byte} {f : Fault}
    (h : memWrite maps a bs = .error f) : memRead maps a bs.length = .error f :=
  memRead_eq_error_iff.2 (memWrite_eq_error_iff.1 h)

/-- A by-identifier write raises what a by-identifier read of as many bytes raises (R39, R40). -/
theorem readId_error_of_writeId_error {maps : List Mapping} {id : Nat} {a : Word} {bs : List Byte} {f : Fault}
    (h : writeId maps id a bs = .error f) : readId maps id a bs.length = .error f :=
  readId_eq_error_iff.2 (writeId_eq_error_iff.1 h)

/-- The faults of stages 1 to 3 and their causes, for a step and for a disassembly. -/
theorem faultCause_of_fetch_error {t : Table} {s : State} {tx : Transaction} {b : Word} {f : Fault}
    (htx : tx = .step ∧ b = s.pc ∨ tx = .disassemble b) (h : fetch t s.maps b = .error f) : FaultCause t s tx f := by
  rcases fetch_error_cases h with hread | ⟨ob, hread, hnone, hf⟩ | ⟨n, hn, hread⟩
  · exact .routed b 2 (.inl ⟨b, htx, .inl ⟨rfl, rfl⟩⟩) hread
  · exact .opcode b ob htx hread hnone hf
  · exact .routed (b + 2) n (.inl ⟨b, htx, .inr ⟨rfl, hn⟩⟩) hread

/-- A table-driven step ends in the fault of its fetch. -/
theorem fetch_error_of_stepWith_fault {t : Table} {s : State} {f : Fault} (h : stepWith t s = .fault f) :
    fetch t s.maps s.pc = .error f := by
  unfold stepWith at h
  split at h
  · split at h
    · split at h
      · next g hg => cases h; exact hg
      · split at h <;> cases h
    · cases h
  · cases h

/-- A `CpuReset` ends in the fault of one of its two reads (R113, R116). -/
theorem vectorRead_error_of_cpuReset_fault {s : State} {f : Fault} (h : (cpuReset s).2 = .fault f) :
    memRead s.maps 0 4 = .error f ∨ memRead s.maps 4 4 = .error f := by
  unfold cpuReset at h
  split at h
  · split at h
    · next g hg => cases h; exact .inl hg
    · split at h
      · next g hg => cases h; exact .inr hg
      · cases h
  · cases h

theorem error_of_answerRead_fault {s : State} {r : Except Fault (List Byte)} {f : Fault}
    (h : (answerRead s r).2 = .fault f) : r = .error f := by
  cases r <;> cases h
  rfl

theorem error_of_answerWrite_fault {s : State} {r : Except Fault (List Mapping)} {f : Fault}
    (h : (answerWrite s r).2 = .fault f) : r = .error f := by
  cases r <;> cases h
  rfl

theorem error_of_answerText_fault {s : State} {r : Except Fault (String × Nat)} {f : Fault}
    (h : (answerText s r).2 = .fault f) : r = .error f := by
  cases r <;> cases h
  rfl

theorem fault_of_answerStep_fault {s : State} {o : Host.Outcome State Fault Refusal} {f : Fault}
    (h : (answerStep s o).2 = .fault f) : o = .fault f := by
  cases o <;> cases h
  rfl

/-- Every fault a transaction reports has one of the causes of `FaultCause`. -/
theorem faultCause_of_transactWith_fault {t : Table} {s : State} {tx : Transaction} {f : Fault}
    (h : (transactWith t s tx).2 = .fault f) : FaultCause t s tx f := by
  unfold transactWith at h
  split at h
  case isFalse => cases h
  cases tx with
  | busAttach a g => cases h
  | busReset p => cases h
  | busRead a n =>
    exact .routed a n (.inr (.inr (.inl rfl))) (error_of_answerRead_fault h)
  | busWrite a bs =>
    exact .routed a bs.length (.inr (.inr (.inr ⟨bs, rfl, rfl⟩)))
      (memRead_error_of_memWrite_error (error_of_answerWrite_fault h))
  | busReadId id a n => exact .byId id a n (.inl rfl) (error_of_answerRead_fault h)
  | busWriteId id a bs =>
    exact .byId id a bs.length (.inr ⟨bs, rfl, rfl⟩) (readId_error_of_writeId_error (error_of_answerWrite_fault h))
  | cpuReset =>
    rcases vectorRead_error_of_cpuReset_fault h with hread | hread
    · exact .routed 0 4 (.inr (.inl ⟨rfl, rfl, .inl rfl⟩)) hread
    · exact .routed 4 4 (.inr (.inl ⟨rfl, rfl, .inr rfl⟩)) hread
  | step =>
    exact faultCause_of_fetch_error (.inl ⟨rfl, rfl⟩) (fetch_error_of_stepWith_fault (fault_of_answerStep_fault h))
  | disassemble a =>
    exact faultCause_of_fetch_error (.inr rfl) (disassemble_eq_error_iff.1 (error_of_answerText_fault h))

/-- Settles O37: what each access of `FaultCause` raises, and when, by the two reads' `error_iff`. -/
theorem faultsComeFromTheirCauses : Obligations.FaultsComeFromTheirCauses := by
  intro t s s' tx f h
  cases faultCause_of_transactWith_fault (congrArg Prod.snd h) with
  | routed a n hasks hread =>
    obtain ⟨hnone, rfl⟩ | ⟨id, m, hlk, hlen, rfl⟩ := memRead_eq_error_iff.1 hread
    · refine ⟨fun m hm => Mapping.claims_eq_false_iff.1 (lookup_eq_none_iff.1 hnone m hm), ?_⟩
      obtain ⟨b, htx, ha⟩ | ⟨htx, _, ha⟩ | htx | ⟨bs, htx, _⟩ := hasks
      · exact .inl ⟨b, htx, ha.imp And.left fun ⟨hb, hn⟩ => ⟨hb, n, hn⟩⟩
      · exact .inr (.inl ⟨htx, ha⟩)
      · exact .inr (.inr (.inl ⟨n, htx⟩))
      · exact .inr (.inr (.inr ⟨bs, htx⟩))
    · have hbase := base_le_of_lookup hlk
      exact .inl ⟨⟨id, m, hlk, by omega⟩, hasks⟩
  | byId id a n hasks hread =>
    obtain ⟨hid, rfl⟩ | ⟨m, hm, hout, rfl⟩ := readId_eq_error_iff.1 hread
    · exact ⟨hid, hasks.imp (fun htx => ⟨a, n, htx⟩) fun ⟨bs, htx, _⟩ => ⟨a, bs, htx⟩⟩
    · exact .inr ⟨id, m, hm, hout, hasks⟩
  | opcode a ob htx hread hnone hf =>
    subst hf
    exact ⟨htx, ob, hread, rfl, hnone⟩

/-- `InvalidOpcode` leaves the state as it was (R102). -/
theorem State.raise_of_not_isBus {f : Fault} (h : f.isBus = false) (s : State) : s.raise f = s := by
  simp [State.raise, h]

/-- Settles O38: the raise of `InvalidOpcode` leaves the state, so the second step is the first one again. -/
theorem invalidOpcodeRepeats : Obligations.InvalidOpcodeRepeats := by
  intro t s s' a op h
  obtain rfl : s' = s := (eq_raise_of_transactWith_fault h).trans (State.raise_of_not_isBus rfl s)
  obtain ⟨⟨_, ha⟩ | hdis, _⟩ := faultsComeFromTheirCauses t s' s' .step _ h
  · exact ⟨rfl, ha, h⟩
  · cases hdis

end Sys2Proof.Machine
